-- ==== Sys2Proof/Word.lean ====
section
/-! DEFINITION. The widths of the block's data (00_scope.md R7, R8, R9; 30_encoding.md R67; 10_state.md R34). -/

namespace Sys2Proof

/-- A 4-bit field of an instruction word (R23). -/
abbrev Nibble := BitVec 4

/-- A register index, the 4-bit field `X` or `Y`, so always 0 to 15 (R25). -/
abbrev Reg := BitVec 4

/-- The content of a general register, a timer or a memory cell (R8). -/
abbrev Byte := BitVec 8

/-- The 12-bit address field `NNN` (R67). -/
abbrev Addr := BitVec 12

/-- An instruction word, and the width of `pc` and `I` (R31, R32, R66). -/
abbrev Word := BitVec 16

/-- A call-stack entry: it holds 0 .. `MEM_SIZE`, and `MEM_SIZE` may be 65536 (R34, C11). -/
abbrev RetAddr := BitVec 17

end Sys2Proof
end

