-- ==== Sys2Proof/Config.lean ====
section
/-! DEFINITION. The implementation parameters of 00_scope.md section 3, the configuration errors of 70_reset_and_hazards.md R150,
and the two free values of the model. The values the spec decides for the parameters stand in Machine/Parameters.lean. -/

namespace Sys2Proof

/-- `FLAG_MODE` (R15, R27): where the flag register lies. -/
inductive FlagMode where
  | aliasedR15
  | separate
  deriving DecidableEq, Repr

/-- `SHIFT_SRC` (R17): the register the two shifts read. -/
inductive ShiftSrc where
  | vx
  | vy
  deriving DecidableEq, Repr

/-- `JUMP_OFFSET_REG` (R19): the register `jmpo` adds. -/
inductive JumpOffsetReg where
  | v0
  | vx
  deriving DecidableEq, Repr

/-- The parameters a model of the block takes (R9 to R21). `NREGS`, `XLEN` and `NKEYS` are fixed (R7, R8, R14) and are widths
of types. -/
structure Params where
  /-- `MEM_SIZE` (R9): bytes of memory. -/
  memSize : Nat
  /-- `LOAD_BASE` (R10): where the program is loaded, and the reset vector. -/
  loadBase : Nat
  /-- `FONT_BASE` (R11): the first of the 80 font bytes. -/
  fontBase : Nat
  /-- `STACK_DEPTH` (R12): entries of the call stack. -/
  stackDepth : Nat
  /-- `FB_W` (R13): columns of the framebuffer. -/
  fbW : Nat
  /-- `FB_H` (R13): rows of the framebuffer. -/
  fbH : Nat
  /-- `FLAG_MODE` (R15). -/
  flagMode : FlagMode
  /-- `CATALOG_EXT` (R16): the extended catalog is present. -/
  catalogExt : Bool
  /-- `SHIFT_SRC` (R17). -/
  shiftSrc : ShiftSrc
  /-- `LOGIC_RESETS_FLAG` (R18). -/
  logicResetsFlag : Bool
  /-- `JUMP_OFFSET_REG` (R19). -/
  jumpOffsetReg : JumpOffsetReg
  /-- `LOADSTORE_INCREMENTS_I` (R20). -/
  loadStoreIncrementsI : Bool
  /-- `FONT_INDEX_MASK` (R21). -/
  fontIndexMask : Bool
  /-- `KEY_INDEX_MASK` (R21). -/
  keyIndexMask : Bool
  deriving DecidableEq, Repr

/-- The configuration errors `Construct` reports (R150). -/
inductive ConfigError where
  | oddProgramLength
  | programTooLarge
  | badMemoryLayout
  | badStackDepth
  | badFramebuffer
  deriving DecidableEq, Repr

/-- The first free value: the `rnd` that the n-th completed `rand` of a run of `Machine.step` receives from the host
(R45, R97: "a free draw: no law relates one step's `rnd` to another's"). It has no body, so nothing can be proved of a value
of it. DESIGN CHOICE, safe (log entry 1). -/
opaque Config.rnd : Nat → Byte

/-- The second free value: what `ldf` leaves in `I` when `FONT_BASE + 5 * d` does not fit its 16 bits, which legal parameters allow only
with `FONT_INDEX_MASK` false and `FONT_BASE` above 64260; R110 states no result there. DESIGN CHOICE, safe (log entry 19). -/
opaque Config.wideFontAddress : Nat → Word

end Sys2Proof
end

