-- ==== Sys2Proof/Machine/Parameters.lean ====
section
/-! DEFINITION. The values 00_scope.md decides for the parameters, the font of 44_display.md R111, and the conditions on a
configuration of 70_reset_and_hazards.md R150. -/

namespace Sys2Proof.Machine

/-- The parameter values this spec decides for the chiprs block (R9 to R21). -/
def params : Params where
  memSize := 4096
  loadBase := 0x200
  fontBase := 0x050
  stackDepth := 16
  fbW := 64
  fbH := 32
  flagMode := .aliasedR15
  catalogExt := true
  shiftSrc := .vx
  logicResetsFlag := false
  jumpOffsetReg := .v0
  loadStoreIncrementsI := false
  fontIndexMask := true
  keyIndexMask := true

/-- The 16 glyphs of 5 bytes, top row first, digit 0 first (R111). -/
def fontBytes : List Byte :=
  [0xF0, 0x90, 0x90, 0x90, 0xF0] ++ [0x20, 0x60, 0x20, 0x20, 0x70] ++ [0xF0, 0x10, 0xF0, 0x80, 0xF0]
    ++ [0xF0, 0x10, 0xF0, 0x10, 0xF0] ++ [0x90, 0x90, 0xF0, 0x10, 0x10] ++ [0xF0, 0x80, 0xF0, 0x10, 0xF0]
    ++ [0xF0, 0x80, 0xF0, 0x90, 0xF0] ++ [0xF0, 0x10, 0x20, 0x40, 0x40] ++ [0xF0, 0x90, 0xF0, 0x90, 0xF0]
    ++ [0xF0, 0x90, 0xF0, 0x10, 0xF0] ++ [0xF0, 0x90, 0xF0, 0x90, 0x90] ++ [0xE0, 0x90, 0xE0, 0x90, 0xE0]
    ++ [0xF0, 0x80, 0x80, 0x80, 0xF0] ++ [0xE0, 0x90, 0x90, 0x90, 0xE0] ++ [0xF0, 0x80, 0xF0, 0x80, 0xF0]
    ++ [0xF0, 0x80, 0xF0, 0x80, 0x80]

/-- What address `a` holds after construction with an empty image: the font in its region, zero elsewhere (R57, R147, R149).
It is what an address that memory does not list reads as. -/
def resetByte (p : Params) (a : Nat) : Byte :=
  if p.fontBase ≤ a ∧ a < p.fontBase + 80 then fontBytes.getD (a - p.fontBase) 0 else 0

/-- The memory layout is legal (R150, the conditions of BadMemoryLayout negated). The program region runs from `LOAD_BASE` to the
end of memory (R57), so the font must end below `LOAD_BASE`. DEDUCED, safe (log entry 13). -/
def layoutOk (p : Params) : Bool :=
  decide (4096 ≤ p.memSize) && decide (p.memSize ≤ 65536)
    && decide (p.loadBase % 2 = 0) && decide (p.loadBase + 2 ≤ p.memSize)
    && decide (p.fontBase + 80 ≤ p.loadBase) && decide (p.fontBase + 80 ≤ p.memSize)

/-- The configuration is legal whatever the image (R150). -/
def paramsOk (p : Params) : Bool :=
  layoutOk p && decide (1 ≤ p.stackDepth) && decide (8 ≤ p.fbW) && decide (1 ≤ p.fbH)

end Sys2Proof.Machine
end

