-- ==== Sys2Proof/Syntax.lean ====
section
/-! DEFINITION. The instructions: one constructor per row of spec/opcode_table.json, in the table's order (30_encoding.md R70). -/

namespace Sys2Proof

/-- A decoded instruction with its operands (R67, R70). -/
inductive Instr where
  /-- `00E0` clear-screen (R113). -/
  | cls
  /-- `00EE` subroutine return (R107). -/
  | ret
  /-- `1NNN` unconditional jump (R105). -/
  | jmp (nnn : Addr)
  /-- `2NNN` subroutine call (R106). -/
  | call (nnn : Addr)
  /-- `3XNN` skip if equal, register to immediate (R99). -/
  | seImm (x : Reg) (nn : Byte)
  /-- `4XNN` skip if not equal, register to immediate (R100). -/
  | sneImm (x : Reg) (nn : Byte)
  /-- `5XY0` skip if equal, register to register (R101). -/
  | seReg (x y : Reg)
  /-- `6XNN` set register to immediate (R85). -/
  | movImm (x : Reg) (nn : Byte)
  /-- `7XNN` add immediate (R88). -/
  | addImm (x : Reg) (nn : Byte)
  /-- `8XY0` set register to register (R86). -/
  | movReg (x y : Reg)
  /-- `8XY1` (R89). -/
  | or (x y : Reg)
  /-- `8XY2` (R90). -/
  | and (x y : Reg)
  /-- `8XY3` (R91). -/
  | xor (x y : Reg)
  /-- `8XY4` add with carry out (R92). -/
  | addReg (x y : Reg)
  /-- `8XY5` subtract with borrow (R93). -/
  | sub (x y : Reg)
  /-- `8XY6` shift right; `y` is kept although `SHIFT_SRC = VX` does not read it (R72, R94). -/
  | shr (x y : Reg)
  /-- `8XY7` reverse subtract with borrow (R95). -/
  | subn (x y : Reg)
  /-- `8XYE` shift left (R96). -/
  | shl (x y : Reg)
  /-- `9XY0` skip if not equal, register to register (R102). -/
  | sneReg (x y : Reg)
  /-- `ANNN` set the address register (R118). -/
  | ldi (nnn : Addr)
  /-- `BNNN` jump with offset (R108). -/
  | jmpo (nnn : Addr)
  /-- `CXNN` random byte AND immediate (R97). -/
  | rand (x : Reg) (nn : Byte)
  /-- `DXYN` draw-sprite (R112). -/
  | draw (x y : Reg) (n : Nibble)
  /-- `EX9E` skip if key pressed (R103). -/
  | skp (x : Reg)
  /-- `EXA1` skip if key not pressed (R104). -/
  | sknp (x : Reg)
  /-- `FX07` read the delay timer (R114). -/
  | ldd (x : Reg)
  /-- `FX0A` block until keypress (R117). -/
  | input (x : Reg)
  /-- `FX15` write the delay timer (R115). -/
  | delay (x : Reg)
  /-- `FX18` write the sound timer (R116). -/
  | sound (x : Reg)
  /-- `FX1E` add a register to the address register (R119). -/
  | addi (x : Reg)
  /-- `FX29` load the address of a font glyph (R110). -/
  | ldf (x : Reg)
  /-- `FX33` store the decimal digits (R120). -/
  | bcd (x : Reg)
  /-- `FX55` store registers 0 to X (R121). -/
  | stor (x : Reg)
  /-- `FX65` load registers 0 to X (R122). -/
  | load (x : Reg)
  /-- The halt/invalid-opcode sentinel with the whole word (R123). -/
  | invalid (w : Word)
  deriving DecidableEq, Repr

/-- Whether the instruction is in the extended catalog, which `CATALOG_EXT` switches (R3, R70). -/
def Instr.isExt : Instr → Bool
  | .cls | .ret | .jmp _ | .call _ | .seImm _ _ | .sneImm _ _ | .seReg _ _ | .movImm _ _ | .addImm _ _ | .movReg _ _ => false
  | .or _ _ | .and _ _ | .xor _ _ | .addReg _ _ | .sub _ _ | .shr _ _ | .subn _ _ | .shl _ _ | .sneReg _ _ => false
  | .ldi _ | .jmpo _ | .rand _ _ => true
  | .draw _ _ _ => false
  | .skp _ | .sknp _ => true
  | .ldd _ | .input _ | .delay _ | .sound _ => false
  | .addi _ => true
  | .ldf _ => false
  | .bcd _ | .stor _ | .load _ => true
  | .invalid _ => false

end Sys2Proof
end

