-- ==== Sys2Proof/WellFormed.lean ====
section
/-! DEFINITION. Which instructions an encoding exists for. Every operand's range is the width of its type (30_encoding.md R67), so
two checks remain: a sentinel holds an illegal word, and an extended instruction needs `CATALOG_EXT`. The illegal words are
written from R73's own list, independently of the decoder, which is written from R70's table. -/

namespace Sys2Proof

/-- The list of R73: the minor opcodes of the `8` group that name an instruction. -/
def legalMinor8 : List Nibble := [0x0, 0x1, 0x2, 0x3, 0x4, 0x5, 0x6, 0x7, 0xE]

/-- The list of R73: the low bytes of the `F` group that name a minimum-catalog instruction. -/
def legalMinMinorF : List Byte := [0x07, 0x0A, 0x15, 0x18, 0x29]

/-- The list of R73: the low bytes of the `F` group that name an extended-catalog instruction. -/
def legalExtMinorF : List Byte := [0x1E, 0x33, 0x55, 0x65]

/-- "The illegal words are, exactly: ..." (R73), for either value of `CATALOG_EXT`. -/
def illegalWord (p : Params) (w : Word) : Bool :=
  let op : Nibble := w.extractLsb' 12 4
  let n : Nibble := w.extractLsb' 0 4
  let nn : Byte := w.extractLsb' 0 8
  let nnn : Addr := w.extractLsb' 0 12
  (op == 0x0 && !(nnn == 0x0E0 || nnn == 0x0EE))
    || ((op == 0x5 || op == 0x9) && n != 0)
    || (op == 0x8 && !legalMinor8.contains n)
    || (op == 0xE && !(nn == 0x9E || nn == 0xA1))
    || (op == 0xF && !(legalMinMinorF.contains nn || legalExtMinorF.contains nn))
    || (!p.catalogExt
        && (op == 0xA || op == 0xB || op == 0xC
            || (op == 0xE && (nn == 0x9E || nn == 0xA1))
            || (op == 0xF && legalExtMinorF.contains nn)))

/-- The sentinel's check: its word is illegal (R73, R123). Every other constructor's operands fit by their types. -/
def sentinelOk (p : Params) : Instr → Bool
  | .invalid w => illegalWord p w
  | .cls | .ret | .jmp _ | .call _ | .seImm _ _ | .sneImm _ _ | .seReg _ _ | .movImm _ _ | .addImm _ _ | .movReg _ _ => true
  | .or _ _ | .and _ _ | .xor _ _ | .addReg _ _ | .sub _ _ | .shr _ _ | .subn _ _ | .shl _ _ | .sneReg _ _ => true
  | .ldi _ | .jmpo _ | .rand _ _ | .draw _ _ _ | .skp _ | .sknp _ | .ldd _ | .input _ | .delay _ | .sound _ => true
  | .addi _ | .ldf _ | .bcd _ | .stor _ | .load _ => true

/-- The instruction is one that a word of this configuration decodes to (R71, R73, R76). -/
def wellFormed (p : Params) (i : Instr) : Bool :=
  sentinelOk p i && (!i.isExt || p.catalogExt)

end Sys2Proof
end

