-- ==== Sys2Proof/Decode.lean ====
section
/-! DEFINITION. The decoder and the encoder, from the opcode map of 30_encoding.md R70 and the field positions of R67. The decoder is total:
a word without a row is the sentinel (R71), and a byte string shorter than a word is rejected by name. -/

namespace Sys2Proof

/-- `OP` = `w[15:12]` (R67). -/
def fieldOp (w : Word) : Nibble := w.extractLsb' 12 4
/-- `X` = `w[11:8]` (R67). -/
def fieldX (w : Word) : Reg := w.extractLsb' 8 4
/-- `Y` = `w[7:4]` (R67). -/
def fieldY (w : Word) : Reg := w.extractLsb' 4 4
/-- `N` = `w[3:0]` (R67). -/
def fieldN (w : Word) : Nibble := w.extractLsb' 0 4
/-- `NN` = `w[7:0]` (R67). -/
def fieldNN (w : Word) : Byte := w.extractLsb' 0 8
/-- `NNN` = `w[11:0]` (R67). -/
def fieldNNN (w : Word) : Addr := w.extractLsb' 0 12

/-- One character of a pattern of R70: a hex digit the nibble must equal, or a letter that any nibble matches (R71). -/
inductive Digit where
  | hex (n : Nibble)
  | any
  deriving DecidableEq, Repr

/-- Whether a nibble of the word agrees with a character of a pattern (R71). -/
def digitFits : Digit → Nibble → Bool
  | .hex n, m => n == m
  | .any, _ => true

/-- A row of the opcode map (R70): its pattern, most significant digit first, its catalog, and the instruction with its fields. -/
structure Row where
  d3 : Digit
  d2 : Digit
  d1 : Digit
  d0 : Digit
  ext : Bool
  make : Word → Instr

/-- A pattern matches when every fixed hex digit equals the word's nibble there (R71). -/
def rowFits (r : Row) (w : Word) : Bool :=
  digitFits r.d3 (fieldOp w) && digitFits r.d2 (fieldX w) && digitFits r.d1 (fieldY w) && digitFits r.d0 (fieldN w)

/-- Format `A` (R69). -/
def rowA (op : Nibble) (ext : Bool) (mk : Addr → Instr) : Row :=
  ⟨.hex op, .any, .any, .any, ext, fun w => mk (fieldNNN w)⟩

/-- Format `XNN` (R69). -/
def rowXNN (op : Nibble) (ext : Bool) (mk : Reg → Byte → Instr) : Row :=
  ⟨.hex op, .any, .any, .any, ext, fun w => mk (fieldX w) (fieldNN w)⟩

/-- Format `XY` with the fixed minor opcode `fn` (R69). -/
def rowXY (op fn : Nibble) (mk : Reg → Reg → Instr) : Row :=
  ⟨.hex op, .any, .any, .hex fn, false, fun w => mk (fieldX w) (fieldY w)⟩

/-- Format `X` with the two fixed digits of its minor opcode (R69). -/
def rowX (op hi lo : Nibble) (ext : Bool) (mk : Reg → Instr) : Row :=
  ⟨.hex op, .any, .hex hi, .hex lo, ext, fun w => mk (fieldX w)⟩

/-- The opcode map, in the order of R70. -/
def opcodeMap : List Row :=
  [ ⟨.hex 0x0, .hex 0x0, .hex 0xE, .hex 0x0, false, fun _ => .cls⟩,
    ⟨.hex 0x0, .hex 0x0, .hex 0xE, .hex 0xE, false, fun _ => .ret⟩,
    rowA 0x1 false .jmp,
    rowA 0x2 false .call,
    rowXNN 0x3 false .seImm,
    rowXNN 0x4 false .sneImm,
    rowXY 0x5 0x0 .seReg,
    rowXNN 0x6 false .movImm,
    rowXNN 0x7 false .addImm ]
  ++
  [ rowXY 0x8 0x0 .movReg,
    rowXY 0x8 0x1 .or,
    rowXY 0x8 0x2 .and,
    rowXY 0x8 0x3 .xor,
    rowXY 0x8 0x4 .addReg,
    rowXY 0x8 0x5 .sub,
    rowXY 0x8 0x6 .shr,
    rowXY 0x8 0x7 .subn,
    rowXY 0x8 0xE .shl,
    rowXY 0x9 0x0 .sneReg ]
  ++
  [ rowA 0xA true .ldi,
    rowA 0xB true .jmpo,
    rowXNN 0xC true .rand,
    ⟨.hex 0xD, .any, .any, .any, false, fun w => .draw (fieldX w) (fieldY w) (fieldN w)⟩,
    rowX 0xE 0x9 0xE true .skp,
    rowX 0xE 0xA 0x1 true .sknp ]
  ++
  [ rowX 0xF 0x0 0x7 false .ldd,
    rowX 0xF 0x0 0xA false .input,
    rowX 0xF 0x1 0x5 false .delay,
    rowX 0xF 0x1 0x8 false .sound,
    rowX 0xF 0x1 0xE true .addi,
    rowX 0xF 0x2 0x9 false .ldf,
    rowX 0xF 0x3 0x3 true .bcd,
    rowX 0xF 0x5 0x5 true .stor,
    rowX 0xF 0x6 0x5 true .load ]

/-- `Decode(w)` (R71): the matching row's instruction, or the sentinel if there is no row or the row is "ext" and `CATALOG_EXT` is
false. -/
def decode (p : Params) (w : Word) : Instr :=
  match opcodeMap.find? (fun r => rowFits r w) with
  | none => .invalid w
  | some r => if r.ext && !p.catalogExt then .invalid w else r.make w

/-- Why a byte string holds no instruction. -/
inductive DecodeError where
  /-- Fewer than the two bytes every instruction has (R66, R77). -/
  | truncated
  deriving DecidableEq, Repr

/-- The instruction at the head of a byte string, big-endian, and the bytes after it (R53, R66). -/
def decodeBytes (p : Params) : List Byte → Except DecodeError (Instr × List Byte)
  | hi :: lo :: rest => .ok (decode p (hi ++ lo), rest)
  | [_] => .error .truncated
  | [] => .error .truncated

/-- Format `XNN` as a word (R69). -/
def wordXNN (op : Nibble) (x : Reg) (nn : Byte) : Word := op ++ x ++ nn

/-- Format `XY`, and format `XYN` with `fn` the field `N`, as a word (R69). -/
def wordXY (op : Nibble) (x y : Reg) (fn : Nibble) : Word := op ++ x ++ y ++ fn

/-- `encode` (R72): the fixed digits of the instruction's row with the operands in their fields. The sentinel keeps its word. -/
def encode : Instr → Word
  | .cls => 0x00E0
  | .ret => 0x00EE
  | .jmp nnn => 0x1#4 ++ nnn
  | .call nnn => 0x2#4 ++ nnn
  | .seImm x nn => wordXNN 0x3 x nn
  | .sneImm x nn => wordXNN 0x4 x nn
  | .seReg x y => wordXY 0x5 x y 0x0
  | .movImm x nn => wordXNN 0x6 x nn
  | .addImm x nn => wordXNN 0x7 x nn
  | .movReg x y => wordXY 0x8 x y 0x0
  | .or x y => wordXY 0x8 x y 0x1
  | .and x y => wordXY 0x8 x y 0x2
  | .xor x y => wordXY 0x8 x y 0x3
  | .addReg x y => wordXY 0x8 x y 0x4
  | .sub x y => wordXY 0x8 x y 0x5
  | .shr x y => wordXY 0x8 x y 0x6
  | .subn x y => wordXY 0x8 x y 0x7
  | .shl x y => wordXY 0x8 x y 0xE
  | .sneReg x y => wordXY 0x9 x y 0x0
  | .ldi nnn => 0xA#4 ++ nnn
  | .jmpo nnn => 0xB#4 ++ nnn
  | .rand x nn => wordXNN 0xC x nn
  | .draw x y n => wordXY 0xD x y n
  | .skp x => wordXNN 0xE x 0x9E
  | .sknp x => wordXNN 0xE x 0xA1
  | .ldd x => wordXNN 0xF x 0x07
  | .input x => wordXNN 0xF x 0x0A
  | .delay x => wordXNN 0xF x 0x15
  | .sound x => wordXNN 0xF x 0x18
  | .addi x => wordXNN 0xF x 0x1E
  | .ldf x => wordXNN 0xF x 0x29
  | .bcd x => wordXNN 0xF x 0x33
  | .stor x => wordXNN 0xF x 0x55
  | .load x => wordXNN 0xF x 0x65
  | .invalid w => w

/-- A word as memory holds it, high byte first (R53). -/
def wordBytes (w : Word) : List Byte := [w.extractLsb' 8 8, w.extractLsb' 0 8]

/-- The two bytes of an instruction in address order (R53, R66). -/
def encodeBytes (i : Instr) : List Byte := wordBytes (encode i)

/-- The word whose low `nbits` bits are those of `w`, every bit above them zero. -/
def tableWord (nbits w : Nat) : Word := BitVec.ofNat 16 (w % 2 ^ nbits)

/-- What the decoder reads from the instruction that spec/opcode_table.json numbers as `w`: one 16-bit word, laid out big-endian. -/
def decodeTableWord (nbits w : Nat) : Option Instr :=
  match decodeBytes Machine.params (wordBytes (tableWord nbits w)) with
  | .ok (i, _) => some i
  | .error _ => none

end Sys2Proof
end

