-- ==== Sys2Proof/Machine/State.lean ====
section
/-! DEFINITION. The architectural state of 10_state.md, under the spec's own names, and its value after reset
(70_reset_and_hazards.md R147, R151). Plain data: `x` is a vector, `S` and `FB` are lists of the lengths the parameters give, and `M` lists
the bytes that differ from their reset content. -/

namespace Sys2Proof.Machine

/-- The byte memory (R42): address and byte pairs, addresses strictly rising, no entry equal to what an unlisted address reads as
(`resetByte`). -/
abbrev Memory := List Host.Cell

/-- The execution faults (R124). -/
inductive FaultReason where
  | invalidOpcode
  | stackOverflow
  | stackUnderflow
  | memoryOutOfBounds
  | pcOutOfBounds
  | keyIndexOutOfRange
  deriving DecidableEq, Repr

/-- The fault record (R44). Its field `code` is a function of the reason (`faultCode`). -/
structure FaultRecord where
  reason : FaultReason
  /-- The address of the faulting instruction. -/
  pc : Word
  /-- The instruction word fetched there. -/
  word : Word
  /-- The out-of-range address or register value, where the fault has one; a non-negative integer, as addresses are (R50). -/
  detail : Option Nat
  deriving DecidableEq, Repr

/-- The machine status (R43). -/
inductive Status where
  | running
  | blocked (x : Reg)
  | halted (f : FaultRecord)
  deriving DecidableEq, Repr

/-- Everything 10_state.md gives the block, and the model's own counter `draws`. -/
structure State where
  /-- `x[0]` .. `x[15]` (R25). -/
  x : Vector Byte 16
  /-- The flag register of `FLAG_MODE = SEPARATE` (R27); under `ALIASED_R15` it stays 0 and nothing reads or writes it (log entry 5). -/
  F : Byte
  /-- The address register (R31). -/
  I : Word
  /-- The program counter (R32). -/
  pc : Word
  /-- The call stack's `STACK_DEPTH` entries, `S[0]` first (R34). -/
  S : List RetAddr
  /-- The stack pointer: how many entries are in use (R35). -/
  SP : Nat
  /-- The delay timer (R38). -/
  DT : Byte
  /-- The sound timer (R39). -/
  ST : Byte
  /-- The framebuffer: `FB_H` rows of `FB_W` pixels, `FB[py][px]` (R40). -/
  FB : List (List Bool)
  /-- The keypad bitmask (R41). -/
  KEYS : Word
  /-- The byte memory (R42). -/
  M : Memory
  /-- The machine status (R43). -/
  status : Status
  /-- The model's own: how many values of `rnd` completed `rand` instructions have used (log entries 1 and 2). -/
  draws : Nat
  deriving DecidableEq, Repr

/-- Why a step has no meaning at all. None of these is an execution fault of the spec: those are next states with the status
`Halted(f)` (R132). -/
inductive Fault where
  /-- Raised by `stepVia` when the word at `pc` lies outside memory. R46 says the fetch "cannot fault while rule R32 holds", so no
  run from reset reaches it. Safe (log entry 6). -/
  | fetchOutsideMemory (a : Nat)
  deriving DecidableEq, Repr

/-- Why the machine turns a request away. -/
inductive Refusal where
  /-- Raised by an arm of `exec` that has no meaning yet; none is left. Safe. -/
  | notModelled (mnemonic : String)
  /-- Raised by the host transactions `KeyPress(k)` and `KeyRelease(k)` with `k` outside 0..15: "a model refuses it" (R140). Safe. -/
  | keyOutOfRange (k : Nat)
  /-- Raised by the host transaction `Construct(image)` on a configuration error: no machine exists (R150). Safe. -/
  | badConfiguration (e : ConfigError)
  deriving DecidableEq, Repr

/-- The state `Construct` builds from an empty image (R147, R149, R151). The stack entries, which the spec leaves unobservable, are 0
(log entry 3). -/
def State.initial (p : Params) : State where
  x := Vector.replicate 16 0
  F := 0
  I := 0
  pc := BitVec.ofNat 16 p.loadBase
  S := List.replicate p.stackDepth 0
  SP := 0
  DT := 0
  ST := 0
  FB := List.replicate p.fbH (List.replicate p.fbW false)
  KEYS := 0
  M := []
  status := .running
  draws := 0

/-- The machine right after reset, at the spec's parameter values, with the empty image (R149: "An empty image is legal"). -/
def State.reset : State := State.initial params

end Sys2Proof.Machine
end

