-- ==== Sys2Proof/Machine/Ops.lean ====
section
/-! DEFINITION. The named operations over registers, memory, stack and status that every meaning is written with; the commit of an
instruction (10_state.md R46, R47) and fault entry (60_exceptions.md R132). There is no return from a fault (R134), so no operation for one stands
beside it: only construction leaves `Halted`. -/

namespace Sys2Proof.Machine

/-! Registers -/

/-- `x[r]` (R25). -/
def State.reg (s : State) (r : Reg) : Byte := s.x[r.toNat]'(r.isLt)

/-- `x[r] <- v` (R25). -/
def State.setReg (s : State) (r : Reg) (v : Byte) : State := { s with x := s.x.set r.toNat v r.isLt }

/-- `x[i] <- bs[i]` for every `i` below the number of bytes (R122). -/
def State.loadRegs (s : State) (bs : List Byte) : State :=
  { s with x := Vector.ofFn fun i => bs.getD i.val s.x[i] }

/-- `x[0] .. x[n-1]`, in order (R121). -/
def State.firstRegs (s : State) (n : Nat) : List Byte := s.x.toList.take n

/-! Raising -/

/-- `raise <reason>(detail)` (R23, R44): the instruction ends and commits nothing. -/
structure Raise where
  reason : FaultReason
  detail : Option Nat
  deriving DecidableEq, Repr

/-! Memory -/

/-- The byte a memory lists at an address. -/
def Memory.listed : Memory → Nat → Option Byte
  | [], _ => none
  | (b, v) :: m, a => if b = a then some v else Memory.listed m a

/-- `M[a]` (R42): the byte listed at `a`, else the reset content. -/
def Memory.get (p : Params) (m : Memory) (a : Nat) : Byte := (Memory.listed m a).getD (resetByte p a)

/-- Put a cell at its place in a list of rising addresses. -/
def Memory.insert (a : Nat) (v : Byte) : Memory → Memory
  | [] => [(a, v)]
  | c :: m => if a < c.1 then (a, v) :: c :: m else c :: Memory.insert a v m

/-- `M[a] <- v`, keeping the canonical form: the old cell goes, and a new one is listed unless `v` is the reset content. -/
def Memory.put (p : Params) (m : Memory) (a : Nat) (v : Byte) : Memory :=
  let rest := m.filter fun c => c.1 != a
  if v = resetByte p a then rest else Memory.insert a v rest

/-- Addresses strictly rising. -/
def Memory.rising : Memory → Bool
  | [] => true
  | [_] => true
  | c :: d :: m => decide (c.1 < d.1) && Memory.rising (d :: m)

/-- The canonical form: addresses strictly rising and below `MEM_SIZE`, no entry equal to its reset content. -/
def Memory.wf (p : Params) (m : Memory) : Bool :=
  Memory.rising m && m.all fun c => decide (c.1 < p.memSize) && c.2 != resetByte p c.1

/-- `MemRead(a, 1)` (R51). -/
def memRead1 (p : Params) (m : Memory) (a : Nat) : Except Raise Byte :=
  if p.memSize ≤ a then .error ⟨.memoryOutOfBounds, some a⟩ else .ok (Memory.get p m a)

/-- `MemRead(a, 2)`, big-endian: `M[a] * 256 + M[a + 1]` (R51, R53). -/
def memRead2 (p : Params) (m : Memory) (a : Nat) : Except Raise Word :=
  match memRead1 p m a with
  | .error e => .error e
  | .ok hi =>
    match memRead1 p m (a + 1) with
    | .error e => .error e
    | .ok lo => .ok (hi ++ lo)

/-- `MemWrite(a, 1, v)` (R52). -/
def memWrite1 (p : Params) (m : Memory) (a : Nat) (v : Byte) : Except Raise Memory :=
  if p.memSize ≤ a then .error ⟨.memoryOutOfBounds, some a⟩ else .ok (Memory.put p m a v)

/-- `n` bytes read one at a time at ascending addresses from `a` (R53, R56); the lowest address outside memory is reported (R131). -/
def readBytes (p : Params) (m : Memory) : Nat → Nat → Except Raise (List Byte)
  | _, 0 => .ok []
  | a, n + 1 =>
    match memRead1 p m a with
    | .error e => .error e
    | .ok b =>
      match readBytes p m (a + 1) n with
      | .error e => .error e
      | .ok bs => .ok (b :: bs)

/-- Bytes written one at a time at ascending addresses from `a` (R53, R56); the lowest address outside memory is reported (R131). -/
def writeBytes (p : Params) (m : Memory) : Nat → List Byte → Except Raise Memory
  | _, [] => .ok m
  | a, b :: bs =>
    match memWrite1 p m a b with
    | .error e => .error e
    | .ok m' => writeBytes p m' (a + 1) bs

/-- The fetch of a step: `MemRead(pc, 2)` (R46). -/
def fetch (p : Params) (s : State) : Except Raise Word := memRead2 p s.M s.pc.toNat

/-! The call stack -/

/-- `S[k]` (R34). Outside the stack's length, which the invariant `Inv` excludes, it reads as 0 (log entry 14). -/
def State.stackAt (s : State) (k : Nat) : RetAddr := s.S.getD k 0

/-- `Push(v)` (R36). -/
def push (p : Params) (v : Nat) (s : State) : Except Raise State :=
  if p.stackDepth ≤ s.SP then .error ⟨.stackOverflow, none⟩
  else .ok { s with S := s.S.set s.SP (BitVec.ofNat 17 v), SP := s.SP + 1 }

/-- `Pop()` (R37): the popped address and the state with `SP` one lower. -/
def pop (s : State) : Except Raise (Nat × State) :=
  if s.SP = 0 then .error ⟨.stackUnderflow, none⟩
  else .ok ((s.stackAt (s.SP - 1)).toNat, { s with SP := s.SP - 1 })

/-! The framebuffer and the keypad -/

/-- `FB[py][px]` (R40). -/
def pixel (fb : List (List Bool)) (py px : Nat) : Bool := (fb.getD py []).getD px false

/-- The framebuffer of the configuration's size whose pixel at `py`, `px` is `f py px` (R40). -/
def grid (p : Params) (f : Nat → Nat → Bool) : List (List Bool) :=
  (List.range p.fbH).map fun py => (List.range p.fbW).map fun px => f py px

/-- `KEYS[k] <- b` (R41). -/
def setKey (keys : Word) (k : Nat) (b : Bool) : Word :=
  if b then keys ||| (1#16 <<< k) else keys &&& ~~~(1#16 <<< k)

/-! The end of an instruction -/

/-- What `Execute` gives the step (R46): the pending writes applied to the state before, the next pc as an unbounded integer (R23), and
the next status. -/
structure Effect where
  pending : State
  npc : Nat
  status : Status
  deriving DecidableEq, Repr

/-- The sequential source of the next-pc multiplexer: `pc + 2` (R33). -/
def sequential (s : State) : Effect := ⟨s, s.pc.toNat + 2, .running⟩

/-- The skip source: `pc + 4` when the condition holds, else `pc + 2` (R33, R98). -/
def skipIf (c : Bool) (s : State) : Effect := ⟨s, if c then s.pc.toNat + 4 else s.pc.toNat + 2, .running⟩

/-- The absolute, offset and stack sources (R33). -/
def transferTo (target : Nat) (s : State) : Effect := ⟨s, target, .running⟩

/-- The hold source: `input` waits with `pc` unchanged (R33, R117). -/
def holdBlocked (x : Reg) (s : State) : Effect := ⟨s, s.pc.toNat, .blocked x⟩

/-- A pc is even and at most `MEM_SIZE - 2` (R32). -/
def pcOk (p : Params) (npc : Nat) : Bool := decide (npc % 2 = 0) && decide (npc + 2 ≤ p.memSize)

/-- Fault entry (R132): nothing commits and the status becomes `Halted(f)`, with the record of R44. -/
def halt (w : Word) (s : State) (r : Raise) : State :=
  { s with status := .halted ⟨r.reason, s.pc, w, r.detail⟩ }

/-- The second half of the step (R46): a raise halts; then the next pc is checked; then the pending writes, the pc and the status commit
together (R47). `w` is the instruction's word. -/
def commit (p : Params) (w : Word) (s : State) : Except Raise Effect → Host.Outcome State Fault Refusal
  | .error r => .next (halt w s r)
  | .ok e =>
    if pcOk p e.npc then .next { e.pending with pc := BitVec.ofNat 16 e.npc, status := e.status }
    else .next (halt w s ⟨.pcOutOfBounds, some e.npc⟩)

/-- The number of a fault (R124). -/
def faultCode : FaultReason → Nat
  | .invalidOpcode => 1
  | .stackOverflow => 2
  | .stackUnderflow => 3
  | .memoryOutOfBounds => 4
  | .pcOutOfBounds => 5
  | .keyIndexOutOfRange => 6

end Sys2Proof.Machine
end

