-- ==== Sys2Proof/Machine/Flags.lean ====
section
/-! DEFINITION. The flag register (10_state.md R27, R28) and every flag value (R29, 41_alu.md R87, 44_display.md R112). -/

namespace Sys2Proof.Machine

/-- The register 15, which is the flag register under `ALIASED_R15` (R27). -/
def flagReg : Reg := 15

/-- `ReadFlag()` (R28). -/
def readFlag (p : Params) (s : State) : Byte :=
  match p.flagMode with
  | .aliasedR15 => s.reg flagReg
  | .separate => s.F

/-- `WriteFlag(v)` with `v` in 0, 1: the whole 8-bit register is written (R28). -/
def writeFlag (p : Params) (b : Bool) (s : State) : State :=
  let v : Byte := if b then 1 else 0
  match p.flagMode with
  | .aliasedR15 => s.setReg flagReg v
  | .separate => { s with F := v }

/-- `WriteFlag(0)` only when `LOGIC_RESETS_FLAG` is true (R18). -/
def logicFlag (p : Params) (s : State) : State := if p.logicResetsFlag then writeFlag p false s else s

/-- The carry out of an addition: 1 when the sum exceeds 255 (R87). -/
def carryOut (a b : Byte) : Bool := decide (255 < a.toNat + b.toNat)

/-- The no-borrow output of `a - b`: 1 when `a >= b` (R87). -/
def noBorrow (a b : Byte) : Bool := decide (b.toNat ≤ a.toNat)

/-- The bit a right shift shifts out: `a[0]` (R87). -/
def outRight (a : Byte) : Bool := a.getLsbD 0

/-- The bit a left shift shifts out: `a[7]` (R87). -/
def outLeft (a : Byte) : Bool := a.getLsbD 7

/-- The pixel of column `c` of a sprite row: bit 7 is the leftmost (R112). -/
def spriteBit (b : Byte) (c : Nat) : Bool := b.getLsbD (7 - c)

/-- The collision output of `draw`: some set pixel of the sprite lies on a set pixel of the framebuffer (R29, R112). -/
def collision (p : Params) (fb : List (List Bool)) (x0 y0 : Nat) (rows : List Byte) : Bool :=
  rows.zipIdx.any fun br => (List.range 8).any fun c =>
    spriteBit br.1 c && pixel fb ((y0 + br.2) % p.fbH) ((x0 + c) % p.fbW)

end Sys2Proof.Machine
end

