-- ==== Sys2Proof/Machine/Operands.lean ====
section
/-! DEFINITION. The operand forms: how a field becomes the value an instruction uses (30_encoding.md R68) and the operands that a parameter
selects (00_scope.md R17, R19, R21). -/

namespace Sys2Proof.Machine

/-- A 12-bit address field zero-extended to 16 bits, as `ldi` writes it (R68). -/
def addrWord (nnn : Addr) : Word := nnn.setWidth 16

/-- The operand of `shr` and `shl` (R17, R94, R96). -/
def shiftOperand (p : Params) (x y : Reg) (s : State) : Byte :=
  match p.shiftSrc with
  | .vx => s.reg x
  | .vy => s.reg y

/-- The register `jmpo` adds: `x[0]`, or `x[X]` with `X` = bits 11:8 of the word, which are bits 11:8 of `NNN` (R19, R108). -/
def jumpOffset (p : Params) (nnn : Addr) (s : State) : Byte :=
  match p.jumpOffsetReg with
  | .v0 => s.reg 0
  | .vx => s.reg (nnn.extractLsb' 8 4)

/-- The digit `ldf` indexes the font with (R21, R110). -/
def fontIndex (p : Params) (v : Byte) : Nat := if p.fontIndexMask then (v &&& 0x0F).toNat else v.toNat

/-- A font address in the 16 bits of `I` (R31, R110): the address, or a free value where it does not fit (log entry 19). -/
def fontAddress (a : Nat) : Word := if a < 65536 then BitVec.ofNat 16 a else Config.wideFontAddress a

/-- The key a key skip tests (R21, R103). -/
def keyIndex (p : Params) (v : Byte) : Except Raise Nat :=
  if p.keyIndexMask then .ok (v &&& 0x0F).toNat
  else if 15 < v.toNat then .error ⟨.keyIndexOutOfRange, some v.toNat⟩
  else .ok v.toNat

/-- `I` after `stor` or `load` of `n` registers (R20, R121, R122). -/
def indexAfter (p : Params) (n : Nat) (i : Word) : Word :=
  if p.loadStoreIncrementsI then i + BitVec.ofNat 16 n else i

/-- The three bytes `bcd` stores (R120). -/
def bcdDigits (v : Byte) : List Byte :=
  [BitVec.ofNat 8 (v.toNat / 100), BitVec.ofNat 8 (v.toNat / 10 % 10), BitVec.ofNat 8 (v.toNat % 10)]

end Sys2Proof.Machine
end

