-- ==== Sys2Proof/Machine/Alu.lean ====
section
/-! DEFINITION. The ALU of 41_alu.md. In every instruction that writes a result and the flag, the flag write is the later one (10_state.md R28). Each instruction's pseudocode is `eff<Name>`, for any parameters, and its meaning `exec<Name>`
commits that at the spec's parameter values. -/

namespace Sys2Proof.Machine

/-- `add rX NN`: `x[X] <- (x[X] + NN) mod 256`, no flag (R88). -/
def effAddImm (_p : Params) (x : Reg) (nn : Byte) (s : State) : Except Raise Effect :=
  .ok (sequential (s.setReg x (s.reg x + nn)))

/-- The meaning of `addImm` at the spec's parameter values. -/
def execAddImm (x : Reg) (nn : Byte) (s : State) : Host.Outcome State Fault Refusal :=
  commit params (encode (.addImm x nn)) s (effAddImm params x nn s)

/-- `or rX rY`: `x[X] <- x[X] | x[Y]`, and the flag 0 only if `LOGIC_RESETS_FLAG` (R89). -/
def effOr (p : Params) (x : Reg) (y : Reg) (s : State) : Except Raise Effect :=
  .ok (sequential (logicFlag p (s.setReg x (s.reg x ||| s.reg y))))

/-- The meaning of `or` at the spec's parameter values. -/
def execOr (x : Reg) (y : Reg) (s : State) : Host.Outcome State Fault Refusal :=
  commit params (encode (.or x y)) s (effOr params x y s)

/-- `and rX rY`: `x[X] <- x[X] & x[Y]`, and the flag 0 only if `LOGIC_RESETS_FLAG` (R90). -/
def effAnd (p : Params) (x : Reg) (y : Reg) (s : State) : Except Raise Effect :=
  .ok (sequential (logicFlag p (s.setReg x (s.reg x &&& s.reg y))))

/-- The meaning of `and` at the spec's parameter values. -/
def execAnd (x : Reg) (y : Reg) (s : State) : Host.Outcome State Fault Refusal :=
  commit params (encode (.and x y)) s (effAnd params x y s)

/-- `xor rX rY`: `x[X] <- x[X] ^ x[Y]`, and the flag 0 only if `LOGIC_RESETS_FLAG` (R91). -/
def effXor (p : Params) (x : Reg) (y : Reg) (s : State) : Except Raise Effect :=
  .ok (sequential (logicFlag p (s.setReg x (s.reg x ^^^ s.reg y))))

/-- The meaning of `xor` at the spec's parameter values. -/
def execXor (x : Reg) (y : Reg) (s : State) : Host.Outcome State Fault Refusal :=
  commit params (encode (.xor x y)) s (effXor params x y s)

/-- `add rX rY`: the sum mod 256, then the carry out (R92). -/
def effAddReg (p : Params) (x : Reg) (y : Reg) (s : State) : Except Raise Effect :=
  .ok (sequential (writeFlag p (carryOut (s.reg x) (s.reg y)) (s.setReg x (s.reg x + s.reg y))))

/-- The meaning of `addReg` at the spec's parameter values. -/
def execAddReg (x : Reg) (y : Reg) (s : State) : Host.Outcome State Fault Refusal :=
  commit params (encode (.addReg x y)) s (effAddReg params x y s)

/-- `sub rX rY`: `x[X] - x[Y]` mod 256, then the no-borrow output (R93). -/
def effSub (p : Params) (x : Reg) (y : Reg) (s : State) : Except Raise Effect :=
  .ok (sequential (writeFlag p (noBorrow (s.reg x) (s.reg y)) (s.setReg x (s.reg x - s.reg y))))

/-- The meaning of `sub` at the spec's parameter values. -/
def execSub (x : Reg) (y : Reg) (s : State) : Host.Outcome State Fault Refusal :=
  commit params (encode (.sub x y)) s (effSub params x y s)

/-- `shr rX rY`: the operand `SHIFT_SRC` selects, right by one, then the bit shifted out (R94). -/
def effShr (p : Params) (x : Reg) (y : Reg) (s : State) : Except Raise Effect :=
  let a := shiftOperand p x y s
  .ok (sequential (writeFlag p (outRight a) (s.setReg x (a >>> 1))))

/-- The meaning of `shr` at the spec's parameter values. -/
def execShr (x : Reg) (y : Reg) (s : State) : Host.Outcome State Fault Refusal :=
  commit params (encode (.shr x y)) s (effShr params x y s)

/-- `subn rX rY`: `x[Y] - x[X]` mod 256, then the no-borrow output (R95). -/
def effSubn (p : Params) (x : Reg) (y : Reg) (s : State) : Except Raise Effect :=
  .ok (sequential (writeFlag p (noBorrow (s.reg y) (s.reg x)) (s.setReg x (s.reg y - s.reg x))))

/-- The meaning of `subn` at the spec's parameter values. -/
def execSubn (x : Reg) (y : Reg) (s : State) : Host.Outcome State Fault Refusal :=
  commit params (encode (.subn x y)) s (effSubn params x y s)

/-- `shl rX rY`: the operand `SHIFT_SRC` selects, left by one mod 256, then the bit shifted out (R96). -/
def effShl (p : Params) (x : Reg) (y : Reg) (s : State) : Except Raise Effect :=
  let a := shiftOperand p x y s
  .ok (sequential (writeFlag p (outLeft a) (s.setReg x (a <<< 1))))

/-- The meaning of `shl` at the spec's parameter values. -/
def execShl (x : Reg) (y : Reg) (s : State) : Host.Outcome State Fault Refusal :=
  commit params (encode (.shl x y)) s (effShl params x y s)

/-- `rand rX NN`: `x[X] <- rnd & NN`, with `rnd` the step's input (R97). The model counts the draw. -/
def effRand (_p : Params) (rnd : Byte) (x : Reg) (nn : Byte) (s : State) : Except Raise Effect :=
  .ok (sequential { s.setReg x (rnd &&& nn) with draws := s.draws + 1 })

/-- The meaning of `rand` at the spec's parameter values. The free value `Config.rnd` stands for the host's `rnd` (log entry 1). -/
def execRand (x : Reg) (nn : Byte) (s : State) : Host.Outcome State Fault Refusal :=
  commit params (encode (.rand x nn)) s (effRand params (Config.rnd s.draws) x nn s)

end Sys2Proof.Machine
end

