-- ==== Sys2Proof/Machine/ControlTransfer.lean ====
section
/-! DEFINITION. The jumps, calls and returns of 43_control_transfer.md. `commit` rejects a target that is odd or outside memory. Each instruction's pseudocode is `eff<Name>`, for any parameters, and its meaning `exec<Name>`
commits that at the spec's parameter values. -/

namespace Sys2Proof.Machine

/-- `jmp addr`: `pc <- NNN` (R105). -/
def effJmp (_p : Params) (nnn : Addr) (s : State) : Except Raise Effect :=
  .ok (transferTo nnn.toNat s)

/-- The meaning of `jmp` at the spec's parameter values. -/
def execJmp (nnn : Addr) (s : State) : Host.Outcome State Fault Refusal :=
  commit params (encode (.jmp nnn)) s (effJmp params nnn s)

/-- `call addr`: `Push(pc + 2)`, then `pc <- NNN` (R106). -/
def effCall (p : Params) (nnn : Addr) (s : State) : Except Raise Effect :=
  match push p (s.pc.toNat + 2) s with
  | .error e => .error e
  | .ok t => .ok (transferTo nnn.toNat t)

/-- The meaning of `call` at the spec's parameter values. -/
def execCall (nnn : Addr) (s : State) : Host.Outcome State Fault Refusal :=
  commit params (encode (.call nnn)) s (effCall params nnn s)

/-- `ret`: `pc <- Pop()`, with no `+ 2` (R107). -/
def effRet (_p : Params) (s : State) : Except Raise Effect :=
  match pop s with
  | .error e => .error e
  | .ok (a, t) => .ok (transferTo a t)

/-- The meaning of `ret` at the spec's parameter values. -/
def execRet (s : State) : Host.Outcome State Fault Refusal :=
  commit params (encode .ret) s (effRet params s)

/-- `jmpo addr`: `pc <- NNN + r`, not truncated (R108). -/
def effJmpo (p : Params) (nnn : Addr) (s : State) : Except Raise Effect :=
  .ok (transferTo (nnn.toNat + (jumpOffset p nnn s).toNat) s)

/-- The meaning of `jmpo` at the spec's parameter values. -/
def execJmpo (nnn : Addr) (s : State) : Host.Outcome State Fault Refusal :=
  commit params (encode (.jmpo nnn)) s (effJmpo params nnn s)

end Sys2Proof.Machine
end

