-- ==== Sys2Proof/Machine/Display.lean ====
section
/-! DEFINITION. The font address, draw and clear of 44_display.md. Each instruction's pseudocode is `eff<Name>`, for any parameters, and its meaning `exec<Name>`
commits that at the spec's parameter values. -/

namespace Sys2Proof.Machine

/-- Whether a set pixel of the sprite lies on column `px` of row `py`; every pixel wraps (R112). -/
def covers (p : Params) (x0 y0 : Nat) (rows : List Byte) (py px : Nat) : Bool :=
  rows.zipIdx.any fun br => (y0 + br.2) % p.fbH == py && (List.range 8).any fun c =>
    spriteBit br.1 c && (x0 + c) % p.fbW == px

/-- The framebuffer with the sprite XORed on. Each pixel is read as it stood before the instruction (R23), which matters only where
`FB_H` is below 15 and a pixel is covered twice: DEDUCED, unsafe there (log entry 12). -/
def xorSprite (p : Params) (fb : List (List Bool)) (x0 y0 : Nat) (rows : List Byte) : List (List Bool) :=
  grid p fun py px => Bool.xor (pixel fb py px) (covers p x0 y0 rows py px)

/-- `ldf rX`: `I <- FONT_BASE + 5 * d` (R110). -/
def effLdf (p : Params) (x : Reg) (s : State) : Except Raise Effect :=
  .ok (sequential { s with I := fontAddress (p.fontBase + 5 * fontIndex p (s.reg x)) })

/-- The meaning of `ldf` at the spec's parameter values. -/
def execLdf (x : Reg) (s : State) : Host.Outcome State Fault Refusal :=
  commit params (encode (.ldf x)) s (effLdf params x s)

/-- `draw rX rY N`: the rows are read first, then the sprite is XORed onto the framebuffer, then the flag is written (R112). -/
def effDraw (p : Params) (x : Reg) (y : Reg) (n : Nibble) (s : State) : Except Raise Effect :=
  let x0 := (s.reg x).toNat % p.fbW
  let y0 := (s.reg y).toNat % p.fbH
  match readBytes p s.M s.I.toNat n.toNat with
  | .error e => .error e
  | .ok rows =>
    .ok (sequential (writeFlag p (collision p s.FB x0 y0 rows) { s with FB := xorSprite p s.FB x0 y0 rows }))

/-- The meaning of `draw` at the spec's parameter values. -/
def execDraw (x : Reg) (y : Reg) (n : Nibble) (s : State) : Host.Outcome State Fault Refusal :=
  commit params (encode (.draw x y n)) s (effDraw params x y n s)

/-- `cls`: every pixel 0 (R113). -/
def effCls (p : Params) (s : State) : Except Raise Effect :=
  .ok (sequential { s with FB := grid p fun _ _ => false })

/-- The meaning of `cls` at the spec's parameter values. -/
def execCls (s : State) : Host.Outcome State Fault Refusal :=
  commit params (encode .cls) s (effCls params s)

end Sys2Proof.Machine
end

