-- ==== Sys2Proof/Machine/IndexMemory.lean ====
section
/-! DEFINITION. The address register and the memory transfers of 46_index_memory.md. Each instruction's pseudocode is `eff<Name>`, for any parameters, and its meaning `exec<Name>`
commits that at the spec's parameter values. -/

namespace Sys2Proof.Machine

/-- `ldi addr`: `I <- NNN` (R118). -/
def effLdi (_p : Params) (nnn : Addr) (s : State) : Except Raise Effect :=
  .ok (sequential { s with I := addrWord nnn })

/-- The meaning of `ldi` at the spec's parameter values. -/
def execLdi (nnn : Addr) (s : State) : Host.Outcome State Fault Refusal :=
  commit params (encode (.ldi nnn)) s (effLdi params nnn s)

/-- `addi rX`: `I <- (I + x[X]) mod 2^16`, no flag (R119). -/
def effAddi (_p : Params) (x : Reg) (s : State) : Except Raise Effect :=
  .ok (sequential { s with I := s.I + (s.reg x).setWidth 16 })

/-- The meaning of `addi` at the spec's parameter values. -/
def execAddi (x : Reg) (s : State) : Host.Outcome State Fault Refusal :=
  commit params (encode (.addi x)) s (effAddi params x s)

/-- `bcd rX`: the decimal digits of `x[X]` at `I`, `I + 1`, `I + 2` (R120). -/
def effBcd (p : Params) (x : Reg) (s : State) : Except Raise Effect :=
  match writeBytes p s.M s.I.toNat (bcdDigits (s.reg x)) with
  | .error e => .error e
  | .ok m => .ok (sequential { s with M := m })

/-- The meaning of `bcd` at the spec's parameter values. -/
def execBcd (x : Reg) (s : State) : Host.Outcome State Fault Refusal :=
  commit params (encode (.bcd x)) s (effBcd params x s)

/-- `stor rX`: `x[0] .. x[X]` at `I .. I + X` (R121). -/
def effStor (p : Params) (x : Reg) (s : State) : Except Raise Effect :=
  let n := x.toNat + 1
  match writeBytes p s.M s.I.toNat (s.firstRegs n) with
  | .error e => .error e
  | .ok m => .ok (sequential { s with M := m, I := indexAfter p n s.I })

/-- The meaning of `stor` at the spec's parameter values. -/
def execStor (x : Reg) (s : State) : Host.Outcome State Fault Refusal :=
  commit params (encode (.stor x)) s (effStor params x s)

/-- `load rX`: `x[0] .. x[X]` from `I .. I + X` (R122). -/
def effLoad (p : Params) (x : Reg) (s : State) : Except Raise Effect :=
  let n := x.toNat + 1
  match readBytes p s.M s.I.toNat n with
  | .error e => .error e
  | .ok bs => .ok (sequential { s.loadRegs bs with I := indexAfter p n s.I })

/-- The meaning of `load` at the spec's parameter values. -/
def execLoad (x : Reg) (s : State) : Host.Outcome State Fault Refusal :=
  commit params (encode (.load x)) s (effLoad params x s)

end Sys2Proof.Machine
end

