-- ==== Sys2Proof/Machine/RegisterMoves.lean ====
section
/-! DEFINITION. The register moves of 40_register_moves.md. Each instruction's pseudocode is `eff<Name>`, for any parameters, and its meaning `exec<Name>`
commits that at the spec's parameter values. -/

namespace Sys2Proof.Machine

/-- `mov rX NN`: `x[X] <- NN` (R85). -/
def effMovImm (_p : Params) (x : Reg) (nn : Byte) (s : State) : Except Raise Effect :=
  .ok (sequential (s.setReg x nn))

/-- The meaning of `movImm` at the spec's parameter values. -/
def execMovImm (x : Reg) (nn : Byte) (s : State) : Host.Outcome State Fault Refusal :=
  commit params (encode (.movImm x nn)) s (effMovImm params x nn s)

/-- `mov rX rY`: `x[X] <- x[Y]` (R86). -/
def effMovReg (_p : Params) (x : Reg) (y : Reg) (s : State) : Except Raise Effect :=
  .ok (sequential (s.setReg x (s.reg y)))

/-- The meaning of `movReg` at the spec's parameter values. -/
def execMovReg (x : Reg) (y : Reg) (s : State) : Host.Outcome State Fault Refusal :=
  commit params (encode (.movReg x y)) s (effMovReg params x y s)

end Sys2Proof.Machine
end

