-- ==== Sys2Proof/Machine/Sentinel.lean ====
section
/-! DEFINITION. The invalid-opcode sentinel of 47_invalid.md. Each instruction's pseudocode is `eff<Name>`, for any parameters, and its meaning `exec<Name>`
commits that at the spec's parameter values. -/

namespace Sys2Proof.Machine

/-- `INVALID(w)`: raises InvalidOpcode, always (R123). The record's word is `w`, which the sentinel's encoding is. -/
def effInvalid (_p : Params) (_w : Word) (_s : State) : Except Raise Effect :=
  .error ⟨.invalidOpcode, none⟩

/-- The meaning of `invalid` at the spec's parameter values. -/
def execInvalid (w : Word) (s : State) : Host.Outcome State Fault Refusal :=
  commit params (encode (.invalid w)) s (effInvalid params w s)

end Sys2Proof.Machine
end

