-- ==== Sys2Proof/Machine/Skips.lean ====
section
/-! DEFINITION. The conditional skips of 42_skips.md. Each instruction's pseudocode is `eff<Name>`, for any parameters, and its meaning `exec<Name>`
commits that at the spec's parameter values. -/

namespace Sys2Proof.Machine

/-- `se rX NN`: skip if `x[X] = NN` (R99). -/
def effSeImm (_p : Params) (x : Reg) (nn : Byte) (s : State) : Except Raise Effect :=
  .ok (skipIf (s.reg x == nn) s)

/-- The meaning of `seImm` at the spec's parameter values. -/
def execSeImm (x : Reg) (nn : Byte) (s : State) : Host.Outcome State Fault Refusal :=
  commit params (encode (.seImm x nn)) s (effSeImm params x nn s)

/-- `sne rX NN`: skip if `x[X] != NN` (R100). -/
def effSneImm (_p : Params) (x : Reg) (nn : Byte) (s : State) : Except Raise Effect :=
  .ok (skipIf (s.reg x != nn) s)

/-- The meaning of `sneImm` at the spec's parameter values. -/
def execSneImm (x : Reg) (nn : Byte) (s : State) : Host.Outcome State Fault Refusal :=
  commit params (encode (.sneImm x nn)) s (effSneImm params x nn s)

/-- `se rX rY`: skip if `x[X] = x[Y]` (R101). -/
def effSeReg (_p : Params) (x : Reg) (y : Reg) (s : State) : Except Raise Effect :=
  .ok (skipIf (s.reg x == s.reg y) s)

/-- The meaning of `seReg` at the spec's parameter values. -/
def execSeReg (x : Reg) (y : Reg) (s : State) : Host.Outcome State Fault Refusal :=
  commit params (encode (.seReg x y)) s (effSeReg params x y s)

/-- `sne rX rY`: skip if `x[X] != x[Y]` (R102). -/
def effSneReg (_p : Params) (x : Reg) (y : Reg) (s : State) : Except Raise Effect :=
  .ok (skipIf (s.reg x != s.reg y) s)

/-- The meaning of `sneReg` at the spec's parameter values. -/
def execSneReg (x : Reg) (y : Reg) (s : State) : Host.Outcome State Fault Refusal :=
  commit params (encode (.sneReg x y)) s (effSneReg params x y s)

/-- `skp rX`: skip if `KEYS[k] = 1` (R103). -/
def effSkp (p : Params) (x : Reg) (s : State) : Except Raise Effect :=
  match keyIndex p (s.reg x) with
  | .error e => .error e
  | .ok k => .ok (skipIf (s.KEYS.getLsbD k) s)

/-- The meaning of `skp` at the spec's parameter values. -/
def execSkp (x : Reg) (s : State) : Host.Outcome State Fault Refusal :=
  commit params (encode (.skp x)) s (effSkp params x s)

/-- `sknp rX`: skip if `KEYS[k] = 0` (R104). -/
def effSknp (p : Params) (x : Reg) (s : State) : Except Raise Effect :=
  match keyIndex p (s.reg x) with
  | .error e => .error e
  | .ok k => .ok (skipIf (!s.KEYS.getLsbD k) s)

/-- The meaning of `sknp` at the spec's parameter values. -/
def execSknp (x : Reg) (s : State) : Host.Outcome State Fault Refusal :=
  commit params (encode (.sknp x)) s (effSknp params x s)

end Sys2Proof.Machine
end

