-- ==== Sys2Proof/Machine/TimersKeypad.lean ====
section
/-! DEFINITION. Timer access and block-until-keypress of 45_timers_keypad.md. Each instruction's pseudocode is `eff<Name>`, for any parameters, and its meaning `exec<Name>`
commits that at the spec's parameter values. -/

namespace Sys2Proof.Machine

/-- `ldd rX`: `x[X] <- DT` (R114). -/
def effLdd (_p : Params) (x : Reg) (s : State) : Except Raise Effect :=
  .ok (sequential (s.setReg x s.DT))

/-- The meaning of `ldd` at the spec's parameter values. -/
def execLdd (x : Reg) (s : State) : Host.Outcome State Fault Refusal :=
  commit params (encode (.ldd x)) s (effLdd params x s)

/-- `delay rX`: `DT <- x[X]` (R115). -/
def effDelay (_p : Params) (x : Reg) (s : State) : Except Raise Effect :=
  .ok (sequential { s with DT := s.reg x })

/-- The meaning of `delay` at the spec's parameter values. -/
def execDelay (x : Reg) (s : State) : Host.Outcome State Fault Refusal :=
  commit params (encode (.delay x)) s (effDelay params x s)

/-- `sound rX`: `ST <- x[X]` (R116). -/
def effSound (_p : Params) (x : Reg) (s : State) : Except Raise Effect :=
  .ok (sequential { s with ST := s.reg x })

/-- The meaning of `sound` at the spec's parameter values. -/
def execSound (x : Reg) (s : State) : Host.Outcome State Fault Refusal :=
  commit params (encode (.sound x)) s (effSound params x s)

/-- `input rX`: check that `pc + 2` is in memory, then wait in `Blocked(X)` with the pc held (R117). The completion is
`keyPress` (R140). -/
def effInput (p : Params) (x : Reg) (s : State) : Except Raise Effect :=
  if p.memSize < s.pc.toNat + 2 + 2 then .error ⟨.pcOutOfBounds, some (s.pc.toNat + 2)⟩
  else .ok (holdBlocked x s)

/-- The meaning of `input` at the spec's parameter values. -/
def execInput (x : Reg) (s : State) : Host.Outcome State Fault Refusal :=
  commit params (encode (.input x)) s (effInput params x s)

end Sys2Proof.Machine
end

