-- ==== Sys2Proof/Machine/Dispatch.lean ====
section
/-! DEFINITION. `exec`: one arm per instruction of spec/opcode_table.json, each a call of its meaning. -/

namespace Sys2Proof.Machine

/-- Execute one decoded instruction at the spec's parameter values: its pending writes commit whole, or it halts the machine
(10_state.md R46, R47). It does not look at the status; `step` does. -/
def exec (i : Instr) (s : State) : Host.Outcome State Fault Refusal :=
  match i with
  | .cls => Sys2Proof.Machine.execCls s
  | .ret => Sys2Proof.Machine.execRet s
  | .jmp nnn => Sys2Proof.Machine.execJmp nnn s
  | .call nnn => Sys2Proof.Machine.execCall nnn s
  | .seImm x nn => Sys2Proof.Machine.execSeImm x nn s
  | .sneImm x nn => Sys2Proof.Machine.execSneImm x nn s
  | .seReg x y => Sys2Proof.Machine.execSeReg x y s
  | .movImm x nn => Sys2Proof.Machine.execMovImm x nn s
  | .addImm x nn => Sys2Proof.Machine.execAddImm x nn s
  | .movReg x y => Sys2Proof.Machine.execMovReg x y s
  | .or x y => Sys2Proof.Machine.execOr x y s
  | .and x y => Sys2Proof.Machine.execAnd x y s
  | .xor x y => Sys2Proof.Machine.execXor x y s
  | .addReg x y => Sys2Proof.Machine.execAddReg x y s
  | .sub x y => Sys2Proof.Machine.execSub x y s
  | .shr x y => Sys2Proof.Machine.execShr x y s
  | .subn x y => Sys2Proof.Machine.execSubn x y s
  | .shl x y => Sys2Proof.Machine.execShl x y s
  | .sneReg x y => Sys2Proof.Machine.execSneReg x y s
  | .ldi nnn => Sys2Proof.Machine.execLdi nnn s
  | .jmpo nnn => Sys2Proof.Machine.execJmpo nnn s
  | .rand x nn => Sys2Proof.Machine.execRand x nn s
  | .draw x y n => Sys2Proof.Machine.execDraw x y n s
  | .skp x => Sys2Proof.Machine.execSkp x s
  | .sknp x => Sys2Proof.Machine.execSknp x s
  | .ldd x => Sys2Proof.Machine.execLdd x s
  | .input x => Sys2Proof.Machine.execInput x s
  | .delay x => Sys2Proof.Machine.execDelay x s
  | .sound x => Sys2Proof.Machine.execSound x s
  | .addi x => Sys2Proof.Machine.execAddi x s
  | .ldf x => Sys2Proof.Machine.execLdf x s
  | .bcd x => Sys2Proof.Machine.execBcd x s
  | .stor x => Sys2Proof.Machine.execStor x s
  | .load x => Sys2Proof.Machine.execLoad x s
  | .invalid w => Sys2Proof.Machine.execInvalid w s

end Sys2Proof.Machine
end

