-- ==== Sys2Proof/Machine/Execute.lean ====
section
/-! DEFINITION. The step of 10_state.md R46 for any parameters and any `rnd`, and the fetch-decode half that the fixed `step` shares with it. -/

namespace Sys2Proof.Machine

/-- `Execute(ins, rnd)` (R46): the instruction's pending writes, next pc and next status, or its raise. -/
def effect (p : Params) (rnd : Byte) (i : Instr) (s : State) : Except Raise Effect :=
  match i with
  | .cls => effCls p s
  | .ret => effRet p s
  | .jmp nnn => effJmp p nnn s
  | .call nnn => effCall p nnn s
  | .seImm x nn => effSeImm p x nn s
  | .sneImm x nn => effSneImm p x nn s
  | .seReg x y => effSeReg p x y s
  | .movImm x nn => effMovImm p x nn s
  | .addImm x nn => effAddImm p x nn s
  | .movReg x y => effMovReg p x y s
  | .or x y => effOr p x y s
  | .and x y => effAnd p x y s
  | .xor x y => effXor p x y s
  | .addReg x y => effAddReg p x y s
  | .sub x y => effSub p x y s
  | .shr x y => effShr p x y s
  | .subn x y => effSubn p x y s
  | .shl x y => effShl p x y s
  | .sneReg x y => effSneReg p x y s
  | .ldi nnn => effLdi p nnn s
  | .jmpo nnn => effJmpo p nnn s
  | .rand x nn => effRand p rnd x nn s
  | .draw x y n => effDraw p x y n s
  | .skp x => effSkp p x s
  | .sknp x => effSknp p x s
  | .ldd x => effLdd p x s
  | .input x => effInput p x s
  | .delay x => effDelay p x s
  | .sound x => effSound p x s
  | .addi x => effAddi p x s
  | .ldf x => effLdf p x s
  | .bcd x => effBcd p x s
  | .stor x => effStor p x s
  | .load x => effLoad p x s
  | .invalid w => effInvalid p w s

/-- Execute an instruction for any parameters and any `rnd` (R46, R47). `exec i s` is this at `params` and the free value. -/
def execWith (p : Params) (rnd : Byte) (i : Instr) (s : State) : Host.Outcome State Fault Refusal :=
  commit p (encode i) s (effect p rnd i s)

/-- The step (R46) over a way to run a decoded instruction. In `Halted` and `Blocked` nothing changes (R133, R157); the status the
step reports is the status of the state it answers. -/
def stepVia (p : Params) (run : Instr → State → Host.Outcome State Fault Refusal) (s : State) :
    Host.Outcome State Fault Refusal :=
  match s.status with
  | .halted _ => .next s
  | .blocked _ => .next s
  | .running =>
    match fetch p s with
    | .error r => .fault (.fetchOutsideMemory (r.detail.getD s.pc.toNat))
    | .ok w => run (decode p w) s

/-- `Step(rnd)` (R46) for any parameters. -/
def stepWith (p : Params) (rnd : Byte) (s : State) : Host.Outcome State Fault Refusal :=
  stepVia p (execWith p rnd) s

/-- The state with the two bytes of a word stored at its pc, and Running, so that its next step fetches that word. -/
def placeWord (p : Params) (w : Word) (s : State) : State :=
  { s with
    M := Memory.put p (Memory.put p s.M s.pc.toNat (w.extractLsb' 8 8)) (s.pc.toNat + 1) (w.extractLsb' 0 8)
    status := .running }

end Sys2Proof.Machine
end

