-- ==== Sys2Proof/Machine/Step.lean ====
section
/-! DEFINITION. The one step of the machine the host runs: `Step(rnd)` of 10_state.md R46 at the spec's parameter values, with `rnd` the free
value; and the placing of an instruction where that step fetches. -/

namespace Sys2Proof.Machine

/-- One `Step` transaction. Ticks and key events are transactions of their own, in Machine/Transactions.lean (log entry 9). -/
def step (s : State) : Host.Outcome State Fault Refusal := stepVia params exec s

/-- The state with an instruction of spec/opcode_table.json placed at its pc; it stands for the load of an image (log entry 10). -/
def State.withFetchWord (s : State) (nbits w : Nat) : State := placeWord params (tableWord nbits w) s

end Sys2Proof.Machine
end

