-- ==== Sys2Proof/Machine/Transactions.lean ====
section
/-! DEFINITION. The block's transactions (10_state.md R45): construction, the step, the tick, the key events and the three reads, each a function
of the state applied whole. -/

namespace Sys2Proof.Machine

/-- The check `Construct` makes before any state exists (R150), in the table's order: DESIGN CHOICE, safe (log entry 11). -/
def configError (p : Params) (image : List Byte) : Option ConfigError :=
  if image.length % 2 = 1 then some .oddProgramLength
  else if p.memSize < p.loadBase + image.length then some .programTooLarge
  else if !layoutOk p then some .badMemoryLayout
  else if p.stackDepth < 1 then some .badStackDepth
  else if p.fbW < 8 ∨ p.fbH < 1 then some .badFramebuffer
  else none

/-- The image's bytes at ascending addresses (R147, R149). -/
def loadImage (p : Params) (m : Memory) : Nat → List Byte → Memory
  | _, [] => m
  | a, b :: bs => loadImage p (Memory.put p m a b) (a + 1) bs

/-- `Construct(image)` (R147): the reset state with the image loaded, or the configuration error. -/
def construct (p : Params) (image : List Byte) : Except ConfigError State :=
  match configError p image with
  | some e => .error e
  | none => .ok { State.initial p with M := loadImage p [] p.loadBase image }

/-- One timer decrement, clamped at 0 (R138). -/
def countDown (t : Byte) : Byte := if 0 < t.toNat then t - 1 else 0

/-- `Tick` (R138), in every status (R139). -/
def tick (s : State) : State := { s with DT := countDown s.DT, ST := countDown s.ST }

/-- `KeyPress(k)` for a key 0..15 (R140): sets the bit and completes a waiting `input`. -/
def keyPress (k : Nat) (s : State) : State :=
  let t := { s with KEYS := setKey s.KEYS k true }
  match s.status with
  | .blocked x => { t.setReg x (BitVec.ofNat 8 k) with pc := s.pc + 2, status := .running }
  | .running => t
  | .halted _ => t

/-- `KeyRelease(k)` for a key 0..15 (R141). -/
def keyRelease (k : Nat) (s : State) : State := { s with KEYS := setKey s.KEYS k false }

/-- What the snapshot shows of the next instruction (R48). -/
inductive NextInstr where
  | instr (i : Instr)
  /-- The decode failure with the word. -/
  | undecodable (w : Word)
  /-- The pc's word lies outside memory, which the invariant of R32 excludes. -/
  | outsideMemory
  deriving DecidableEq, Repr

/-- The diagnostic snapshot (R48). -/
structure Snapshot where
  x : Vector Byte 16
  /-- `F`, under `SEPARATE` only. -/
  F : Option Byte
  I : Word
  DT : Byte
  ST : Byte
  pc : Word
  SP : Nat
  /-- `S[0] .. S[SP-1]`. -/
  S : List RetAddr
  status : Status
  next : NextInstr
  deriving DecidableEq, Repr

/-- The next instruction, or the decode failure with the word (R48). -/
def nextInstr (p : Params) (s : State) : NextInstr :=
  match fetch p s with
  | .error _ => .outsideMemory
  | .ok w =>
    match decode p w with
    | .invalid w' => .undecodable w'
    | i => .instr i

/-- `ReadSnapshot` (R48). -/
def readSnapshot (p : Params) (s : State) : Snapshot where
  x := s.x
  F := match p.flagMode with
    | .aliasedR15 => none
    | .separate => some s.F
  I := s.I
  DT := s.DT
  ST := s.ST
  pc := s.pc
  SP := s.SP
  S := s.S.take s.SP
  status := s.status
  next := nextInstr p s

/-- `ReadFramebuffer`: the whole framebuffer (R40, R45). -/
def readFramebuffer (s : State) : List (List Bool) := s.FB

/-- `ReadSound`: `sound_active = (ST != 0)` (R39). -/
def readSound (s : State) : Bool := s.ST != 0

/-- The transactions of R45 with their inputs. -/
inductive Transaction where
  | construct (image : List Byte)
  | step (rnd : Byte)
  | tick
  | keyPress (k : Nat)
  | keyRelease (k : Nat)
  | readSnapshot
  | readFramebuffer
  | readSound
  deriving DecidableEq, Repr

/-- What a transaction does to the state (R45). A key outside 0..15 and a configuration error are refused (R140, R150). A reconstruction
keeps the model's counter of free values, so that the draws after it are new ones (log entry 2). -/
def act (p : Params) (t : Transaction) (s : State) : Host.Outcome State Fault Refusal :=
  match t with
  | .construct image =>
    match construct p image with
    | .error e => .refused (.badConfiguration e)
    | .ok c => .next { c with draws := s.draws }
  | .step rnd => stepWith p rnd s
  | .tick => .next (tick s)
  | .keyPress k => if k < 16 then .next (keyPress k s) else .refused (.keyOutOfRange k)
  | .keyRelease k => if k < 16 then .next (keyRelease k s) else .refused (.keyOutOfRange k)
  | .readSnapshot => .next s
  | .readFramebuffer => .next s
  | .readSound => .next s

/-- What the block returns to the host (R146). -/
inductive Reply where
  | nothing
  /-- `Step` returns the new status, which holds the fault. -/
  | status (st : Status)
  | snapshot (v : Snapshot)
  | framebuffer (fb : List (List Bool))
  | sound (active : Bool)
  deriving DecidableEq, Repr

/-- The reply to a transaction, read from the state it left (R45, R46, R146). -/
def reply (p : Params) (t : Transaction) (s : State) : Reply :=
  match t with
  | .construct _ => .nothing
  | .step _ => .status s.status
  | .tick => .nothing
  | .keyPress _ => .nothing
  | .keyRelease _ => .nothing
  | .readSnapshot => .snapshot (readSnapshot p s)
  | .readFramebuffer => .framebuffer (readFramebuffer s)
  | .readSound => .sound (readSound s)

/-- A sequence of transactions in the host's order (R45, R159); a refusal or a fault ends it. -/
def actAll (p : Params) : List Transaction → State → Host.Outcome State Fault Refusal
  | [], s => .next s
  | t :: ts, s =>
    match act p t s with
    | .next s' => actAll p ts s'
    | .fault f => .fault f
    | .refused r => .refused r

end Sys2Proof.Machine
end

