-- ==== Sys2Proof/Safety.lean ====
section
/-! DEFINITION. The words the statements use: the invariant of every reachable state, the places a sequential instruction completes and where it
faults, and what the spec says those two results are. Addresses are written out (4096, 0x1000), so that a statement is about the
spec's numbers and not about `params`. -/

namespace Sys2Proof.Machine

/-- What every reachable state satisfies: the invariants the spec states in prose, over any parameters. -/
structure Inv (p : Params) (s : State) : Prop where
  /-- "program counter always even" (R32). -/
  pcEven : s.pc.toNat % 2 = 0
  /-- "and within memory bounds" (R32). -/
  pcInMemory : s.pc.toNat + 2 ≤ p.memSize
  /-- A waiting `input` can complete: its pc check was done when it executed (R117, R140). -/
  waitFits : ∀ x, s.status = .blocked x → s.pc.toNat + 4 ≤ p.memSize
  /-- The fault record names the instruction at the pc (R44, R132). -/
  faultHere : ∀ f, s.status = .halted f → f.pc = s.pc ∧ fetch p s = .ok f.word
  /-- The stack has its fixed capacity (R34). -/
  stackLength : s.S.length = p.stackDepth
  /-- "stack depth never exceeds its fixed capacity" (R35). -/
  spBound : s.SP ≤ p.stackDepth
  /-- Every entry in use is a pushed `pc + 2`: even, and at most `MEM_SIZE` (R106, R107). -/
  stackEntries : ∀ k, k < s.SP → (s.stackAt k).toNat % 2 = 0 ∧ (s.stackAt k).toNat ≤ p.memSize
  /-- The framebuffer has `FB_H` rows (R40). -/
  fbRows : s.FB.length = p.fbH
  /-- Every row has `FB_W` pixels (R40). -/
  fbColumns : ∀ row, row ∈ s.FB → row.length = p.fbW
  /-- The separate flag holds 0 or 1 (R28). -/
  flagBit : s.F.toNat ≤ 1
  /-- The memory is in its canonical form. -/
  memoryWf : Memory.wf p s.M = true

/-- The pc is even and `pc + 2` is still a legal pc, so a sequential instruction completes (R32, R46). -/
def SeqFits (p : Params) (s : State) : Prop := s.pc.toNat % 2 = 0 ∧ s.pc.toNat + 4 ≤ p.memSize

/-- The pc is the last word of memory, where every sequential instruction raises PcOutOfBounds (40_register_moves.md, R129). -/
def LastWord (p : Params) (s : State) : Prop := s.pc.toNat % 2 = 0 ∧ s.pc.toNat + 2 = p.memSize

/-- A state after its pc moved on by `n` bytes, Running (R33). -/
def advance (n : Nat) (s : State) : State := { s with pc := s.pc + BitVec.ofNat 16 n, status := .running }

/-- A state after a transfer to address `a`, Running (R33). -/
def goTo (a : Nat) (s : State) : State := { s with pc := BitVec.ofNat 16 a, status := .running }

/-- The state after the instruction `i` raised a fault: nothing but the status changes (R132), and the record holds the reason, the
instruction's address, its word and the detail (R44). -/
def haltedOn (i : Instr) (reason : FaultReason) (detail : Option Nat) (s : State) : State :=
  { s with status := .halted { reason := reason, pc := s.pc, word := encode i, detail := detail } }

/-- `i` is written `w`: `w` decodes to `i`, or to the sentinel when `i` is in the extended catalog and `CATALOG_EXT` is false (R71, R72,
R76). -/
def EncodedAs (i : Instr) (w : Word) : Prop :=
  encode i = w ∧ ∀ p, decode p w = if i.isExt && !p.catalogExt then .invalid w else i

/-- For any parameters, the sequential instruction `i` changes the state by `f` and moves the pc on by 2, and at the last word of
memory it raises PcOutOfBounds with nothing changed (40_register_moves.md, R46, R129). -/
def SequentialWith (p : Params) (rnd : Byte) (i : Instr) (f : State → State) : Prop :=
  ∀ s, (SeqFits p s → execWith p rnd i s = .next (advance 2 (f s)))
    ∧ (LastWord p s → execWith p rnd i s = .next (haltedOn i .pcOutOfBounds (some p.memSize) s))

/-- The same of `exec`, at the spec's parameter values: it completes at every even pc up to 0xFFC, and at 0xFFE it raises
PcOutOfBounds with detail 0x1000. -/
def Sequential (i : Instr) (f : State → State) : Prop :=
  ∀ s, (s.pc.toNat % 2 = 0 ∧ s.pc.toNat + 4 ≤ 4096 → exec i s = .next (advance 2 (f s)))
    ∧ (s.pc = 0xFFE → exec i s = .next (haltedOn i .pcOutOfBounds (some 0x1000) s))

/-- The skip `i` with condition `c` (R98): pc + 4 or pc + 2 when that is a legal pc, else PcOutOfBounds with the rejected value, at every
even pc inside memory; nothing else changes. -/
def SkipsOn (i : Instr) (c : State → Bool) : Prop :=
  ∀ s, s.pc.toNat % 2 = 0 → s.pc.toNat + 2 ≤ 4096 →
    let n := if c s then 4 else 2
    (s.pc.toNat + n + 2 ≤ 4096 → exec i s = .next (advance n s))
      ∧ (4096 < s.pc.toNat + n + 2 → exec i s = .next (haltedOn i .pcOutOfBounds (some (s.pc.toNat + n)) s))

/-- The transfer `i` to address `a` that changes the state by `f` (43_control_transfer.md): it completes when the target is even and at most
0xFFE, else it raises PcOutOfBounds with nothing changed, from any pc. -/
def TransfersTo (i : Instr) (a : Nat) (f : State → State) (s : State) : Prop :=
  (a % 2 = 0 ∧ a ≤ 0xFFE → exec i s = .next (goTo a (f s)))
    ∧ (a % 2 = 1 ∨ 0xFFE < a → exec i s = .next (haltedOn i .pcOutOfBounds (some a) s))

/-- A byte of memory at the spec's parameter values. -/
def State.byteAt (s : State) (a : Nat) : Byte := Memory.get params s.M a

/-- The bit a Bool stands for, as the flag register holds it (R28). -/
def bit (b : Bool) : Byte := if b then 1 else 0

/-- Pixel (row `py`, column `px`) is a set pixel of the sprite that `draw rX rY N` draws in state `s`, with every pixel wrapped
(R112): some row `r` and column `c` of it, bit 7 of the byte being column 0, fall there. -/
def SpritePixel (s : State) (x y : Reg) (n : Nibble) (py px : Nat) : Prop :=
  ∃ r c, r < n.toNat ∧ c < 8 ∧ (s.byteAt (s.I.toNat + r)).getLsbD (7 - c) = true
    ∧ py = ((s.reg y).toNat % 32 + r) % 32 ∧ px = ((s.reg x).toNat % 64 + c) % 64

/-- The registers an instruction may write: those R26 names, and register 15 for a flag writer under `ALIASED_R15` (R26, R29). -/
def writesReg (p : Params) (i : Instr) (r : Reg) : Prop :=
  match i with
  | .movImm x _ | .addImm x _ | .movReg x _ | .rand x _ | .ldd x => r = x
  | .or x _ | .and x _ | .xor x _ => r = x ∨ (r = 15 ∧ p.flagMode = .aliasedR15 ∧ p.logicResetsFlag = true)
  | .addReg x _ | .sub x _ | .shr x _ | .subn x _ | .shl x _ => r = x ∨ (r = 15 ∧ p.flagMode = .aliasedR15)
  | .draw _ _ _ => r = 15 ∧ p.flagMode = .aliasedR15
  | .load x => r.toNat ≤ x.toNat
  | .cls | .ret | .jmp _ | .call _ | .seImm _ _ | .sneImm _ _ | .seReg _ _ | .sneReg _ _ | .ldi _ | .jmpo _ => False
  | .skp _ | .sknp _ | .input _ | .delay _ | .sound _ | .addi _ | .ldf _ | .bcd _ | .stor _ | .invalid _ => False

/-- The flag writers of R29. -/
def writesFlag (p : Params) (i : Instr) : Prop :=
  match i with
  | .addReg _ _ | .sub _ _ | .shr _ _ | .subn _ _ | .shl _ _ | .draw _ _ _ => True
  | .or _ _ | .and _ _ | .xor _ _ => p.logicResetsFlag = true
  | .movImm _ _ | .addImm _ _ | .movReg _ _ | .rand _ _ | .ldd _ | .load _ => False
  | .cls | .ret | .jmp _ | .call _ | .seImm _ _ | .sneImm _ _ | .seReg _ _ | .sneReg _ _ | .ldi _ | .jmpo _ => False
  | .skp _ | .sknp _ | .input _ | .delay _ | .sound _ | .addi _ | .ldf _ | .bcd _ | .stor _ | .invalid _ => False

/-- The bytes an instruction stores, as address, in the state it starts from (R56): `bcd` at `I` .. `I + 2`, `stor` at `I` .. `I + X`,
computed as their meanings compute them; no other instruction stores. -/
def storesAt (i : Instr) (s : State) (a : Nat) : Prop :=
  match i with
  | .bcd x => s.I.toNat ≤ a ∧ a < s.I.toNat + (bcdDigits (s.reg x)).length
  | .stor x => s.I.toNat ≤ a ∧ a < s.I.toNat + (s.firstRegs (x.toNat + 1)).length
  | .movImm _ _ | .addImm _ _ | .movReg _ _ | .rand _ _ | .ldd _ | .load _ | .draw _ _ _ => False
  | .or _ _ | .and _ _ | .xor _ _ | .addReg _ _ | .sub _ _ | .shr _ _ | .subn _ _ | .shl _ _ => False
  | .cls | .ret | .jmp _ | .call _ | .seImm _ _ | .sneImm _ _ | .seReg _ _ | .sneReg _ _ | .ldi _ | .jmpo _ => False
  | .skp _ | .sknp _ | .input _ | .delay _ | .sound _ | .addi _ | .ldf _ | .invalid _ => False

end Sys2Proof.Machine
end

