-- ==== Sys2Proof/Certificates/Slice0/Obligations.lean ====
section
/-! DEFINITION. The statements for the provers, by the numbered rules of spec/. The words they use stand in Sys2Proof/Safety.lean. -/

open Sys2Proof Sys2Proof.Machine

/-! ## Encoding (30_encoding.md) -/

/-- A few words of 95_test_vectors.md (E1, E2, E8, section 2) decode as it says, one or more per family. A sanity statement. -/
def Obligations.SpecWordsDecode : Prop :=
  (decode params 0x00E0 = .cls ∧ decode params 0x00EE = .ret ∧ decode params 0x0000 = .invalid 0x0000
    ∧ decode params 0x5121 = .invalid 0x5121 ∧ decode params 0x812F = .invalid 0x812F)
  ∧ (decode params 0x6105 = .movImm 1 5 ∧ decode params 0x8110 = .movReg 1 1 ∧ decode params 0x71FF = .addImm 1 255
    ∧ decode params 0x8AB6 = .shr 10 11 ∧ decode params 0xC30F = .rand 3 15)
  ∧ (decode params 0x1206 = .jmp 518 ∧ decode params 0x2204 = .call 516 ∧ decode params 0xB300 = .jmpo 768
    ∧ decode params 0x3F01 = .seImm 15 1 ∧ decode params 0x9120 = .sneReg 1 2 ∧ decode params 0xE49E = .skp 4)
  ∧ (decode params 0xD125 = .draw 1 2 5 ∧ decode params 0xF029 = .ldf 0 ∧ decode params 0xA123 = .ldi 291
    ∧ decode params 0xF50A = .input 5 ∧ decode params 0xF607 = .ldd 6 ∧ decode params 0xF255 = .stor 2)

/-- R72: encoding and decoding are inverse, for every configuration and every instruction it can express, and every word. What
`decode` answers is well-formed, so the first law covers it. -/
def Obligations.EncodeAndDecodeAreInverse : Prop :=
  ∀ p, (∀ i, wellFormed p i = true → decode p (encode i) = i)
    ∧ (∀ w, encode (decode p w) = w) ∧ (∀ w, wellFormed p (decode p w) = true)

/-- R73, R75: the words that decode to the sentinel are exactly those of R73's list, for either value of `CATALOG_EXT`; every other word
decodes to an instruction that is no sentinel. -/
def Obligations.SentinelIsExactlyTheIllegalWords : Prop :=
  ∀ p w, (illegalWord p w = true → decode p w = .invalid w) ∧ (illegalWord p w = false → ∀ v, decode p w ≠ .invalid v)

/-- R71: the patterns of the opcode map are pairwise disjoint, so at most one row matches a word. -/
def Obligations.PatternsArePairwiseDisjoint : Prop :=
  opcodeMap.Pairwise fun r r' => ∀ w, ¬ (rowFits r w = true ∧ rowFits r' w = true)

/-- R76: `CATALOG_EXT` changes decoding only, and only by making the extended rows illegal. -/
def Obligations.CatalogExtChangesDecodingOnly : Prop :=
  ∀ p : Params,
    (∀ w, decode { p with catalogExt := false } w
      = if (decode { p with catalogExt := true } w).isExt then .invalid w else decode { p with catalogExt := true } w)
    ∧ (∀ b rnd i s, execWith { p with catalogExt := b } rnd i s = execWith p rnd i s)

/-! ## The step (10_state.md) -/

/-- R46: when the two bytes at the pc decode to `i`, high byte first, a step of a running machine is `exec` of `i`; the step adds
nothing around it. -/
def Obligations.StepRunsTheDecodedInstruction : Prop :=
  ∀ s i, s.status = .running → s.pc.toNat + 2 ≤ 4096 →
    decode params (s.byteAt s.pc.toNat ++ s.byteAt (s.pc.toNat + 1)) = i → wellFormed params i = true → step s = exec i s

/-- The fixed step is the spec's `Step(rnd)` (R46) at the spec's parameter values with the free value as `rnd`. That the free value is
`Config.rnd` applied to the counter is the model's choice (log entry 1); the statement holds for every value of it. -/
def Obligations.StepIsTheSpecStepWithAFreeDraw : Prop :=
  ∀ s, step s = stepWith params (Config.rnd s.draws) s

/-- R157: a step in `Blocked` or `Halted` changes nothing. -/
def Obligations.WaitingAndHaltedStepsChangeNothing : Prop :=
  ∀ s, s.status ≠ .running → step s = .next s ∧ ∀ p rnd, stepWith p rnd s = .next s

/-- R46 ("cannot fault while rule R32 holds"): from every state that meets the invariant a step answers a next state. -/
def Obligations.StepAlwaysAnswers : Prop :=
  (∀ s, Inv params s → ∃ t, step s = .next t) ∧ (∀ p rnd s, Inv p s → ∃ t, stepWith p rnd s = .next t)

/-- R32, R34, R35, R40, R44, R132: every step keeps the invariant. -/
def Obligations.StepKeepsTheInvariant : Prop :=
  ∀ s t, Inv params s → step s = .next t → Inv params t

/-- The same for every legal configuration and every transaction of R45, construction included. -/
def Obligations.TransactionsKeepTheInvariant : Prop :=
  ∀ p x s t, paramsOk p = true → Inv p s → act p x s = .next t → Inv p t

/-- The invariant holds at reset (R147, R151). The stack entries of the reset state are the model's choice (log entry 3); the invariant
does not look at entries at `SP` and above. -/
def Obligations.InvariantHoldsAtReset : Prop := Inv params State.reset

/-- R132: an instruction that raises a fault commits nothing; only the status changes, and the record holds the instruction's own
address and word (R44). -/
def Obligations.FaultsCommitNothing : Prop :=
  (∀ p rnd i s t f, execWith p rnd i s = .next t → t.status = .halted f →
    t = { s with status := .halted f } ∧ f.pc = s.pc ∧ f.word = encode i)
  ∧ (∀ s t f, s.status = .running → step s = .next t → t.status = .halted f →
    t = { s with status := .halted f } ∧ f.pc = s.pc ∧ fetch params s = .ok f.word)

/-- R131: the instruction's own fault is reported before PcOutOfBounds, whatever the pc and the target. -/
def Obligations.OwnFaultsComeBeforeThePcCheck : Prop :=
  ∀ s, (∀ nnn, 16 ≤ s.SP → exec (.call nnn) s = .next (haltedOn (.call nnn) .stackOverflow none s))
    ∧ (s.SP = 0 → exec .ret s = .next (haltedOn .ret .stackUnderflow none s))
    ∧ (∀ x y n, 0 < n.toNat → 4096 < s.I.toNat + n.toNat →
        exec (.draw x y n) s = .next (haltedOn (.draw x y n) .memoryOutOfBounds (some (max s.I.toNat 4096)) s))
    ∧ (∀ x, 4096 < s.I.toNat + 3 →
        exec (.bcd x) s = .next (haltedOn (.bcd x) .memoryOutOfBounds (some (max s.I.toNat 4096)) s))
    ∧ (∀ x : Reg, 4096 < s.I.toNat + (x.toNat + 1) →
        exec (.stor x) s = .next (haltedOn (.stor x) .memoryOutOfBounds (some (max s.I.toNat 4096)) s)
        ∧ exec (.load x) s = .next (haltedOn (.load x) .memoryOutOfBounds (some (max s.I.toNat 4096)) s))
    ∧ (∀ p rnd x, p.keyIndexMask = false → 15 < (s.reg x).toNat →
        execWith p rnd (.skp x) s = .next (haltedOn (.skp x) .keyIndexOutOfRange (some (s.reg x).toNat) s)
        ∧ execWith p rnd (.sknp x) s = .next (haltedOn (.sknp x) .keyIndexOutOfRange (some (s.reg x).toNat) s))

/-- R134: only construction leaves `Halted`; no instruction executes there. -/
def Obligations.OnlyConstructionLeavesHalted : Prop :=
  ∀ p x s f, s.status = .halted f →
    (∀ rnd, act p (.step rnd) s = .next s)
    ∧ (∀ t, (∀ image, x ≠ .construct image) → act p x s = .next t → t.status = .halted f)
    ∧ (∀ t image, act p (.construct image) s = .next t → t.status = .running)

/-- R142: `Blocked(X)` is entered only by `input`, only a key press wakes it, and everything but the timers and the keypad survives it. -/
def Obligations.OnlyAKeyPressWakesBlocked : Prop :=
  (∀ p rnd i s t x, execWith p rnd i s = .next t → t.status = .blocked x → i = .input x)
  ∧ (∀ p a s t x, act p a s = .next t → t.status = .blocked x → s.status = .blocked x ∨ ∃ rnd, a = .step rnd)
  ∧ (∀ p a s t x, s.status = .blocked x → (∀ image, a ≠ .construct image) → (∀ k, a ≠ .keyPress k) → act p a s = .next t →
      t = { s with DT := t.DT, ST := t.ST, KEYS := t.KEYS })
  ∧ (∀ p k s x, s.status = .blocked x → k < 16 → ∃ t, act p (.keyPress k) s = .next t ∧ t.status = .running)

/-! ## Register moves (40_register_moves.md) -/

/-- R85, R86: the two moves. -/
def Obligations.MoveResults : Prop :=
  (∀ x nn, EncodedAs (.movImm x nn) (0x6#4 ++ x ++ nn)
    ∧ Sequential (.movImm x nn) (fun s => s.setReg x nn)
    ∧ ∀ p rnd, SequentialWith p rnd (.movImm x nn) (fun s => s.setReg x nn))
  ∧ (∀ x y, EncodedAs (.movReg x y) (0x8#4 ++ x ++ y ++ 0x0#4)
    ∧ Sequential (.movReg x y) (fun s => s.setReg x (s.reg y))
    ∧ ∀ p rnd, SequentialWith p rnd (.movReg x y) (fun s => s.setReg x (s.reg y)))

/-! ## ALU (41_alu.md) -/

/-- R88: add immediate, mod 256, no flag. -/
def Obligations.AddImmediateResult : Prop :=
  ∀ x nn, EncodedAs (.addImm x nn) (0x7#4 ++ x ++ nn)
    ∧ Sequential (.addImm x nn) (fun s => s.setReg x (BitVec.ofNat 8 ((s.reg x).toNat + nn.toNat)))
    ∧ ∀ p rnd, SequentialWith p rnd (.addImm x nn) (fun s => s.setReg x (BitVec.ofNat 8 ((s.reg x).toNat + nn.toNat)))

/-- R89, R90, R91: the logic operations write no flag, unless `LOGIC_RESETS_FLAG` is true. -/
def Obligations.LogicResults : Prop :=
  ∀ x y,
    (EncodedAs (.or x y) (0x8#4 ++ x ++ y ++ 0x1#4)
      ∧ Sequential (.or x y) (fun s => s.setReg x (s.reg x ||| s.reg y))
      ∧ ∀ p rnd, SequentialWith p rnd (.or x y) (fun s =>
          if p.logicResetsFlag then writeFlag p false (s.setReg x (s.reg x ||| s.reg y)) else s.setReg x (s.reg x ||| s.reg y)))
    ∧ (EncodedAs (.and x y) (0x8#4 ++ x ++ y ++ 0x2#4)
      ∧ Sequential (.and x y) (fun s => s.setReg x (s.reg x &&& s.reg y))
      ∧ ∀ p rnd, SequentialWith p rnd (.and x y) (fun s =>
          if p.logicResetsFlag then writeFlag p false (s.setReg x (s.reg x &&& s.reg y)) else s.setReg x (s.reg x &&& s.reg y)))
    ∧ (EncodedAs (.xor x y) (0x8#4 ++ x ++ y ++ 0x3#4)
      ∧ Sequential (.xor x y) (fun s => s.setReg x (s.reg x ^^^ s.reg y))
      ∧ ∀ p rnd, SequentialWith p rnd (.xor x y) (fun s =>
          if p.logicResetsFlag then writeFlag p false (s.setReg x (s.reg x ^^^ s.reg y)) else s.setReg x (s.reg x ^^^ s.reg y)))

/-- R92: the sum mod 256, and then the carry out in the flag, so that with X = 15 the carry remains (R28). -/
def Obligations.AddRegisterResult : Prop :=
  ∀ x y, EncodedAs (.addReg x y) (0x8#4 ++ x ++ y ++ 0x4#4)
    ∧ Sequential (.addReg x y) (fun s =>
        (s.setReg x (BitVec.ofNat 8 ((s.reg x).toNat + (s.reg y).toNat))).setReg 15
          (bit (decide (255 < (s.reg x).toNat + (s.reg y).toNat))))
    ∧ ∀ p rnd, SequentialWith p rnd (.addReg x y) (fun s =>
        writeFlag p (decide (255 < (s.reg x).toNat + (s.reg y).toNat))
          (s.setReg x (BitVec.ofNat 8 ((s.reg x).toNat + (s.reg y).toNat))))

/-- R93, R95: the differences mod 256, and then the no-borrow output in the flag. -/
def Obligations.SubtractResults : Prop :=
  ∀ x y,
    (EncodedAs (.sub x y) (0x8#4 ++ x ++ y ++ 0x5#4)
      ∧ Sequential (.sub x y) (fun s =>
          (s.setReg x (BitVec.ofNat 8 ((s.reg x).toNat + 256 - (s.reg y).toNat))).setReg 15
            (bit (decide ((s.reg y).toNat ≤ (s.reg x).toNat))))
      ∧ ∀ p rnd, SequentialWith p rnd (.sub x y) (fun s =>
          writeFlag p (decide ((s.reg y).toNat ≤ (s.reg x).toNat))
            (s.setReg x (BitVec.ofNat 8 ((s.reg x).toNat + 256 - (s.reg y).toNat)))))
    ∧ (EncodedAs (.subn x y) (0x8#4 ++ x ++ y ++ 0x7#4)
      ∧ Sequential (.subn x y) (fun s =>
          (s.setReg x (BitVec.ofNat 8 ((s.reg y).toNat + 256 - (s.reg x).toNat))).setReg 15
            (bit (decide ((s.reg x).toNat ≤ (s.reg y).toNat))))
      ∧ ∀ p rnd, SequentialWith p rnd (.subn x y) (fun s =>
          writeFlag p (decide ((s.reg x).toNat ≤ (s.reg y).toNat))
            (s.setReg x (BitVec.ofNat 8 ((s.reg y).toNat + 256 - (s.reg x).toNat)))))

/-- R94, R96: a shift by one of the operand `SHIFT_SRC` selects, and then the bit shifted out in the flag. -/
def Obligations.ShiftResults : Prop :=
  ∀ x y,
    (EncodedAs (.shr x y) (0x8#4 ++ x ++ y ++ 0x6#4)
      ∧ Sequential (.shr x y) (fun s =>
          (s.setReg x (BitVec.ofNat 8 ((s.reg x).toNat / 2))).setReg 15 (bit (decide ((s.reg x).toNat % 2 = 1))))
      ∧ ∀ p rnd, SequentialWith p rnd (.shr x y) (fun s =>
          let a := if p.shiftSrc = .vx then s.reg x else s.reg y
          writeFlag p (decide (a.toNat % 2 = 1)) (s.setReg x (BitVec.ofNat 8 (a.toNat / 2)))))
    ∧ (EncodedAs (.shl x y) (0x8#4 ++ x ++ y ++ 0xE#4)
      ∧ Sequential (.shl x y) (fun s =>
          (s.setReg x (BitVec.ofNat 8 (2 * (s.reg x).toNat))).setReg 15 (bit (decide (128 ≤ (s.reg x).toNat))))
      ∧ ∀ p rnd, SequentialWith p rnd (.shl x y) (fun s =>
          let a := if p.shiftSrc = .vx then s.reg x else s.reg y
          writeFlag p (decide (128 ≤ a.toNat)) (s.setReg x (BitVec.ofNat 8 (2 * a.toNat)))))

/-- R97: `rand` writes `rnd & NN` for every `rnd`, and no flag. In `exec` the host's `rnd` is the free value, and the counter of draws
advances (log entries 1 and 2). -/
def Obligations.RandResult : Prop :=
  ∀ x nn, EncodedAs (.rand x nn) (0xC#4 ++ x ++ nn)
    ∧ Sequential (.rand x nn) (fun s => { s.setReg x (Config.rnd s.draws &&& nn) with draws := s.draws + 1 })
    ∧ ∀ p rnd, SequentialWith p rnd (.rand x nn) (fun s => { s.setReg x (rnd &&& nn) with draws := s.draws + 1 })

/-! ## Skips (42_skips.md) -/

/-- R98 to R102: the skips on register values; they write nothing but the pc. -/
def Obligations.ValueSkipResults : Prop :=
  (∀ x nn, EncodedAs (.seImm x nn) (0x3#4 ++ x ++ nn) ∧ SkipsOn (.seImm x nn) (fun s => decide (s.reg x = nn)))
  ∧ (∀ x nn, EncodedAs (.sneImm x nn) (0x4#4 ++ x ++ nn) ∧ SkipsOn (.sneImm x nn) (fun s => decide (s.reg x ≠ nn)))
  ∧ (∀ x y, EncodedAs (.seReg x y) (0x5#4 ++ x ++ y ++ 0x0#4) ∧ SkipsOn (.seReg x y) (fun s => decide (s.reg x = s.reg y)))
  ∧ (∀ x y, EncodedAs (.sneReg x y) (0x9#4 ++ x ++ y ++ 0x0#4) ∧ SkipsOn (.sneReg x y) (fun s => decide (s.reg x ≠ s.reg y)))

/-- R103, R104, R130: the key skips test the key in the register's low nibble; with `KEY_INDEX_MASK` false they test the key itself, and
raise KeyIndexOutOfRange above 15. -/
def Obligations.KeySkipResults : Prop :=
  ∀ x, EncodedAs (.skp x) (0xE#4 ++ x ++ 0x9E#8) ∧ EncodedAs (.sknp x) (0xE#4 ++ x ++ 0xA1#8)
    ∧ SkipsOn (.skp x) (fun s => s.KEYS.getLsbD ((s.reg x).toNat % 16))
    ∧ SkipsOn (.sknp x) (fun s => !s.KEYS.getLsbD ((s.reg x).toNat % 16))
    ∧ ∀ p rnd s, p.keyIndexMask = false →
      (15 < (s.reg x).toNat →
        execWith p rnd (.skp x) s = .next (haltedOn (.skp x) .keyIndexOutOfRange (some (s.reg x).toNat) s)
        ∧ execWith p rnd (.sknp x) s = .next (haltedOn (.sknp x) .keyIndexOutOfRange (some (s.reg x).toNat) s))
      ∧ ((s.reg x).toNat ≤ 15 → s.pc.toNat % 2 = 0 → s.pc.toNat + 6 ≤ p.memSize →
        execWith p rnd (.skp x) s = .next (advance (if s.KEYS.getLsbD (s.reg x).toNat then 4 else 2) s)
        ∧ execWith p rnd (.sknp x) s = .next (advance (if s.KEYS.getLsbD (s.reg x).toNat then 2 else 4) s))

/-! ## Control transfer (43_control_transfer.md) -/

/-- R105: the jump, and PcOutOfBounds for a target that is odd or 0xFFF. -/
def Obligations.JumpResult : Prop :=
  ∀ nnn s, EncodedAs (.jmp nnn) (0x1#4 ++ nnn) ∧ TransfersTo (.jmp nnn) nnn.toNat id s

/-- R106, R36: the call pushes `pc + 2` at `S[SP]` and leaves every other entry; a full stack raises StackOverflow, checked first; a bad
target raises PcOutOfBounds; either fault changes nothing but the status. -/
def Obligations.CallResult : Prop :=
  ∀ nnn s, EncodedAs (.call nnn) (0x2#4 ++ nnn)
    ∧ (s.S.length = 16 → s.SP < 16 → nnn.toNat % 2 = 0 → nnn.toNat ≤ 0xFFE →
        ∃ t, exec (.call nnn) s = .next t ∧ t = { goTo nnn.toNat s with S := t.S, SP := s.SP + 1 }
          ∧ t.S.length = 16 ∧ (t.stackAt s.SP).toNat = s.pc.toNat + 2 ∧ ∀ k, k ≠ s.SP → t.stackAt k = s.stackAt k)
    ∧ (16 ≤ s.SP → exec (.call nnn) s = .next (haltedOn (.call nnn) .stackOverflow none s))
    ∧ (s.SP < 16 → (nnn.toNat % 2 = 1 ∨ 0xFFE < nnn.toNat) →
        exec (.call nnn) s = .next (haltedOn (.call nnn) .pcOutOfBounds (some nnn.toNat) s))

/-- R107, R37: the return goes to the popped address itself; an empty stack raises StackUnderflow. -/
def Obligations.ReturnResult : Prop :=
  EncodedAs .ret 0x00EE
    ∧ ∀ s, (s.SP = 0 → exec .ret s = .next (haltedOn .ret .stackUnderflow none s))
      ∧ (0 < s.SP → TransfersTo .ret (s.stackAt (s.SP - 1)).toNat (fun s => { s with SP := s.SP - 1 }) s)

/-- R108: the jump with offset, not truncated; with `JUMP_OFFSET_REG` = `VX` the register is bits 11:8 of the word. -/
def Obligations.JumpOffsetResult : Prop :=
  ∀ nnn s, EncodedAs (.jmpo nnn) (0xB#4 ++ nnn)
    ∧ TransfersTo (.jmpo nnn) (nnn.toNat + (s.reg 0).toNat) id s
    ∧ ∀ p rnd, p.jumpOffsetReg = .vx →
        let a := nnn.toNat + (s.reg (BitVec.ofNat 4 (nnn.toNat / 256))).toNat
        (a % 2 = 0 ∧ a + 2 ≤ p.memSize → execWith p rnd (.jmpo nnn) s = .next (goTo a s))
          ∧ (a % 2 = 1 ∨ p.memSize < a + 2 →
              execWith p rnd (.jmpo nnn) s = .next (haltedOn (.jmpo nnn) .pcOutOfBounds (some a) s))

/-! ## Display (44_display.md) -/

/-- R110: the glyph address of the register's low nibble, or of its whole value when `FONT_INDEX_MASK` is false. Nothing is
said of an address that does not fit the 16 bits of `I`, where the spec states no result (log entry 19). -/
def Obligations.FontAddressResult : Prop :=
  ∀ x, EncodedAs (.ldf x) (0xF#4 ++ x ++ 0x29#8)
    ∧ Sequential (.ldf x) (fun s => { s with I := BitVec.ofNat 16 (0x050 + 5 * ((s.reg x).toNat % 16)) })
    ∧ ∀ p rnd s,
      let a := p.fontBase + 5 * (if p.fontIndexMask then (s.reg x).toNat % 16 else (s.reg x).toNat)
      (SeqFits p s → ∃ t, execWith p rnd (.ldf x) s = .next t ∧ t = { advance 2 s with I := t.I }
          ∧ (a < 65536 → t.I = BitVec.ofNat 16 a))
        ∧ (LastWord p s → execWith p rnd (.ldf x) s = .next (haltedOn (.ldf x) .pcOutOfBounds (some p.memSize) s))

/-- R112: the sprite is XORed on, every pixel wrapped, register 15 becomes the collision, and nothing else but the pc changes; rows outside
memory raise MemoryOutOfBounds before any pixel changes, at any pc. -/
def Obligations.DrawResult : Prop :=
  ∀ x y n s, EncodedAs (.draw x y n) (0xD#4 ++ x ++ y ++ n)
    ∧ (n.toNat = 0 ∨ s.I.toNat + n.toNat ≤ 4096 →
        (s.pc.toNat % 2 = 0 → s.pc.toNat + 4 ≤ 4096 →
          ∃ t, exec (.draw x y n) s = .next t ∧ t = { advance 2 s with FB := t.FB, x := t.x }
            ∧ (∀ r, r ≠ 15 → t.reg r = s.reg r)
            ∧ t.FB.length = 32 ∧ (∀ row, row ∈ t.FB → row.length = 64)
            ∧ (∀ py px, py < 32 → px < 64 →
                (SpritePixel s x y n py px → pixel t.FB py px = !pixel s.FB py px)
                ∧ (¬ SpritePixel s x y n py px → pixel t.FB py px = pixel s.FB py px))
            ∧ ((∃ py px, SpritePixel s x y n py px ∧ pixel s.FB py px = true) → t.reg 15 = 1)
            ∧ (¬ (∃ py px, SpritePixel s x y n py px ∧ pixel s.FB py px = true) → t.reg 15 = 0))
        ∧ (s.pc = 0xFFE → exec (.draw x y n) s = .next (haltedOn (.draw x y n) .pcOutOfBounds (some 0x1000) s)))
    ∧ (0 < n.toNat → 4096 < s.I.toNat + n.toNat →
        exec (.draw x y n) s = .next (haltedOn (.draw x y n) .memoryOutOfBounds (some (max s.I.toNat 4096)) s))

/-- R113: every pixel of the framebuffer becomes 0. -/
def Obligations.ClearResult : Prop :=
  EncodedAs .cls 0x00E0
    ∧ Sequential .cls (fun s => { s with FB := List.replicate 32 (List.replicate 64 false) })
    ∧ ∀ p rnd, SequentialWith p rnd .cls (fun s => { s with FB := List.replicate p.fbH (List.replicate p.fbW false) })

/-- Drawing the same sprite twice at the same place restores the framebuffer, and the second draw reports a collision exactly when the first set
some pixel (95_test_vectors.md E6, from R112). The coordinates stay the same only if neither is the flag register. -/
def Obligations.DrawingTwiceRestoresTheFramebuffer : Prop :=
  ∀ x y n s t u, x ≠ 15 → y ≠ 15 → Inv params s →
    exec (.draw x y n) s = .next t → t.status = .running → exec (.draw x y n) t = .next u → u.status = .running →
    u.FB = s.FB ∧ (u.reg 15 = 1 ↔ ∃ py px, SpritePixel s x y n py px ∧ pixel s.FB py px = false)

/-! ## Timers and keypad (45_timers_keypad.md, 60_exceptions.md) -/

/-- R114, R115, R116: the timer accesses. -/
def Obligations.TimerAccessResults : Prop :=
  ∀ x,
    (EncodedAs (.ldd x) (0xF#4 ++ x ++ 0x07#8)
      ∧ Sequential (.ldd x) (fun s => s.setReg x s.DT)
      ∧ ∀ p rnd, SequentialWith p rnd (.ldd x) (fun s => s.setReg x s.DT))
    ∧ (EncodedAs (.delay x) (0xF#4 ++ x ++ 0x15#8)
      ∧ Sequential (.delay x) (fun s => { s with DT := s.reg x })
      ∧ ∀ p rnd, SequentialWith p rnd (.delay x) (fun s => { s with DT := s.reg x }))
    ∧ (EncodedAs (.sound x) (0xF#4 ++ x ++ 0x18#8)
      ∧ Sequential (.sound x) (fun s => { s with ST := s.reg x })
      ∧ ∀ p rnd, SequentialWith p rnd (.sound x) (fun s => { s with ST := s.reg x }))

/-- R117: `input` waits in `Blocked(X)` with the pc held and nothing else changed, and raises PcOutOfBounds when `pc + 2` is above 0xFFE;
the next press of a key completes it. -/
def Obligations.InputResult : Prop :=
  ∀ x s, EncodedAs (.input x) (0xF#4 ++ x ++ 0x0A#8)
    ∧ (s.pc.toNat % 2 = 0 → s.pc.toNat + 4 ≤ 4096 → exec (.input x) s = .next { s with status := .blocked x })
    ∧ (4096 < s.pc.toNat + 4 → exec (.input x) s = .next (haltedOn (.input x) .pcOutOfBounds (some (s.pc.toNat + 2)) s))
    ∧ (∀ p k, s.status = .blocked x → k < 16 →
        act p (.keyPress k) s = .next { s.setReg x (BitVec.ofNat 8 k) with
          KEYS := setKey s.KEYS k true, pc := s.pc + 2, status := .running })

/-- R138, R139: a tick lowers each timer by one, not below 0, in every status, and changes nothing else. -/
def Obligations.TickResult : Prop :=
  ∀ p s, ∃ t, act p .tick s = .next t ∧ t = { s with DT := t.DT, ST := t.ST }
    ∧ t.DT.toNat = s.DT.toNat - 1 ∧ t.ST.toNat = s.ST.toNat - 1

/-- R140: a press sets the key's bit in every status; in `Blocked(X)` it completes the `input`, else it changes nothing more; a key
outside 0..15 is refused. -/
def Obligations.KeyPressResult : Prop :=
  ∀ p k s, (16 ≤ k → act p (.keyPress k) s = .refused (.keyOutOfRange k))
    ∧ (k < 16 → ∃ t, act p (.keyPress k) s = .next t
      ∧ (∀ j, t.KEYS.getLsbD j = if j = k then true else s.KEYS.getLsbD j)
      ∧ ((∀ x, s.status ≠ .blocked x) → t = { s with KEYS := t.KEYS })
      ∧ (∀ x, s.status = .blocked x →
          t = { s.setReg x (BitVec.ofNat 8 k) with KEYS := t.KEYS, pc := s.pc + 2, status := .running }))

/-- R141: a release clears the key's bit in every status, and nothing else. -/
def Obligations.KeyReleaseResult : Prop :=
  ∀ p k s, (16 ≤ k → act p (.keyRelease k) s = .refused (.keyOutOfRange k))
    ∧ (k < 16 → ∃ t, act p (.keyRelease k) s = .next t ∧ t = { s with KEYS := t.KEYS }
      ∧ ∀ j, t.KEYS.getLsbD j = if j = k then false else s.KEYS.getLsbD j)

/-! ## Address register and memory transfers (46_index_memory.md) -/

/-- R118, R119: the writes of the address register. -/
def Obligations.AddressRegisterResults : Prop :=
  (∀ nnn, EncodedAs (.ldi nnn) (0xA#4 ++ nnn)
    ∧ Sequential (.ldi nnn) (fun s => { s with I := BitVec.ofNat 16 nnn.toNat })
    ∧ ∀ p rnd, SequentialWith p rnd (.ldi nnn) (fun s => { s with I := BitVec.ofNat 16 nnn.toNat }))
  ∧ (∀ x, EncodedAs (.addi x) (0xF#4 ++ x ++ 0x1E#8)
    ∧ Sequential (.addi x) (fun s => { s with I := BitVec.ofNat 16 (s.I.toNat + (s.reg x).toNat) })
    ∧ ∀ p rnd, SequentialWith p rnd (.addi x) (fun s => { s with I := BitVec.ofNat 16 (s.I.toNat + (s.reg x).toNat) }))

/-- R120: the three decimal digits at `I`, `I + 1`, `I + 2`, every other byte as before; outside memory nothing is written. -/
def Obligations.DecimalStoreResult : Prop :=
  ∀ x s, EncodedAs (.bcd x) (0xF#4 ++ x ++ 0x33#8)
    ∧ (s.I.toNat + 3 ≤ 4096 →
        (s.pc.toNat % 2 = 0 → s.pc.toNat + 4 ≤ 4096 →
          ∃ t, exec (.bcd x) s = .next t ∧ t = { advance 2 s with M := t.M }
            ∧ ∀ a, (t.byteAt a).toNat = if a = s.I.toNat then (s.reg x).toNat / 100
                else if a = s.I.toNat + 1 then (s.reg x).toNat / 10 % 10
                else if a = s.I.toNat + 2 then (s.reg x).toNat % 10 else (s.byteAt a).toNat)
        ∧ (s.pc = 0xFFE → exec (.bcd x) s = .next (haltedOn (.bcd x) .pcOutOfBounds (some 0x1000) s)))
    ∧ (4096 < s.I.toNat + 3 →
        exec (.bcd x) s = .next (haltedOn (.bcd x) .memoryOutOfBounds (some (max s.I.toNat 4096)) s))

/-- R121: registers 0 to X at `I` .. `I + X`, every other byte as before; `I` moves on only when `LOADSTORE_INCREMENTS_I` is true; outside
memory nothing is written. -/
def Obligations.RegisterStoreResult : Prop :=
  ∀ (x : Reg) s, EncodedAs (.stor x) (0xF#4 ++ x ++ 0x55#8)
    ∧ (s.I.toNat + x.toNat < 4096 →
        (s.pc.toNat % 2 = 0 → s.pc.toNat + 4 ≤ 4096 →
          ∃ t, exec (.stor x) s = .next t ∧ t = { advance 2 s with M := t.M }
            ∧ ∀ a, t.byteAt a = if s.I.toNat ≤ a ∧ a ≤ s.I.toNat + x.toNat
                then s.reg (BitVec.ofNat 4 (a - s.I.toNat)) else s.byteAt a)
        ∧ (s.pc = 0xFFE → exec (.stor x) s = .next (haltedOn (.stor x) .pcOutOfBounds (some 0x1000) s)))
    ∧ (4096 ≤ s.I.toNat + x.toNat →
        exec (.stor x) s = .next (haltedOn (.stor x) .memoryOutOfBounds (some (max s.I.toNat 4096)) s))
    ∧ ∀ p rnd, SeqFits p s → s.I.toNat + x.toNat < p.memSize →
        ∃ t, execWith p rnd (.stor x) s = .next t ∧ t = { advance 2 s with M := t.M, I := t.I }
          ∧ t.I = if p.loadStoreIncrementsI then BitVec.ofNat 16 (s.I.toNat + x.toNat + 1) else s.I

/-- R122: registers 0 to X from `I` .. `I + X`, every other register as before; `I` moves on only when `LOADSTORE_INCREMENTS_I` is true;
outside memory no register is written. -/
def Obligations.RegisterLoadResult : Prop :=
  ∀ (x : Reg) s, EncodedAs (.load x) (0xF#4 ++ x ++ 0x65#8)
    ∧ (s.I.toNat + x.toNat < 4096 →
        (s.pc.toNat % 2 = 0 → s.pc.toNat + 4 ≤ 4096 →
          ∃ t, exec (.load x) s = .next t ∧ t = { advance 2 s with x := t.x }
            ∧ ∀ r : Reg, t.reg r = if r.toNat ≤ x.toNat then s.byteAt (s.I.toNat + r.toNat) else s.reg r)
        ∧ (s.pc = 0xFFE → exec (.load x) s = .next (haltedOn (.load x) .pcOutOfBounds (some 0x1000) s)))
    ∧ (4096 ≤ s.I.toNat + x.toNat →
        exec (.load x) s = .next (haltedOn (.load x) .memoryOutOfBounds (some (max s.I.toNat 4096)) s))
    ∧ ∀ p rnd, SeqFits p s → s.I.toNat + x.toNat < p.memSize →
        ∃ t, execWith p rnd (.load x) s = .next t ∧ t = { advance 2 s with x := t.x, I := t.I }
          ∧ t.I = if p.loadStoreIncrementsI then BitVec.ofNat 16 (s.I.toNat + x.toNat + 1) else s.I

/-- What `stor rX` wrote, `load rX` reads back into the same registers, from any later state with that memory and that `I` (R121,
R122; 95_test_vectors.md section 2.8). -/
def Obligations.LoadReadsBackWhatStorWrote : Prop :=
  ∀ x s t u v, exec (.stor x) s = .next t → t.status = .running → u.M = t.M → u.I = s.I →
    exec (.load x) u = .next v → v.status = .running →
    ∀ r : Reg, v.reg r = if r.toNat ≤ x.toNat then s.reg r else u.reg r

/-- R62: a store by `stor` or `bcd` is what a fetch from the stored addresses reads, with no other action. -/
def Obligations.StoresAreSeenByTheNextFetch : Prop :=
  (∀ x s t a, exec (.stor x) s = .next t → t.status = .running → s.I.toNat ≤ a → a + 1 ≤ s.I.toNat + x.toNat →
    fetch params { t with pc := BitVec.ofNat 16 a }
      = .ok (s.reg (BitVec.ofNat 4 (a - s.I.toNat)) ++ s.reg (BitVec.ofNat 4 (a + 1 - s.I.toNat))))
  ∧ (∀ x s t, exec (.bcd x) s = .next t → t.status = .running →
    fetch params { t with pc := s.I } = .ok (BitVec.ofNat 16 (256 * ((s.reg x).toNat / 100) + (s.reg x).toNat / 10 % 10)))

/-! ## The sentinel (47_invalid.md) -/

/-- R123: the sentinel always raises InvalidOpcode with its address and its word, and a running machine that fetches an illegal word halts
so. -/
def Obligations.SentinelResult : Prop :=
  (∀ w s, exec (.invalid w) s
    = .next { s with status := .halted { reason := .invalidOpcode, pc := s.pc, word := w, detail := none } })
  ∧ (∀ p rnd w s, s.status = .running → fetch p s = .ok w → illegalWord p w = true →
    stepWith p rnd s
      = .next { s with status := .halted { reason := .invalidOpcode, pc := s.pc, word := w, detail := none } })

/-! ## Memory, reset and the host (20_memory.md, 70_reset_and_hazards.md, 10_state.md) -/

/-- R51: `MemRead` of one byte and of two, big-endian, and the address it reports outside memory. -/
def Obligations.MemoryReadResult : Prop :=
  ∀ p m a,
    (p.memSize ≤ a → memRead1 p m a = .error ⟨.memoryOutOfBounds, some a⟩ ∧ memRead2 p m a = .error ⟨.memoryOutOfBounds, some a⟩)
    ∧ (a < p.memSize → memRead1 p m a = .ok (Memory.get p m a))
    ∧ (a + 1 = p.memSize → memRead2 p m a = .error ⟨.memoryOutOfBounds, some (a + 1)⟩)
    ∧ (a + 1 < p.memSize →
        memRead2 p m a = .ok (BitVec.ofNat 16 ((Memory.get p m a).toNat * 256 + (Memory.get p m (a + 1)).toNat)))

/-- R147: the machine `Construct` builds, or the configuration error and no machine. R147 gives `F` a value under `SEPARATE` only; that the
field is 0 under `ALIASED_R15` too is the model's choice (log entry 5). The stack's entries, which the spec leaves unobservable, are not named. -/
def Obligations.ConstructResult : Prop :=
  ∀ p image, (∀ e, configError p image = some e →
      construct p image = .error e ∧ ∀ s, act p (.construct image) s = .refused (.badConfiguration e))
    ∧ (configError p image = none → ∃ s, construct p image = .ok s
      ∧ (∀ r, s.reg r = 0) ∧ s.F = 0 ∧ s.I = 0 ∧ s.pc = BitVec.ofNat 16 p.loadBase ∧ s.SP = 0 ∧ s.DT = 0 ∧ s.ST = 0
      ∧ (∀ py px, pixel s.FB py px = false) ∧ s.KEYS = 0 ∧ s.status = .running
      ∧ ∀ a, Memory.get p s.M a = if p.loadBase ≤ a ∧ a < p.loadBase + image.length then image.getD (a - p.loadBase) 0
          else if p.fontBase ≤ a ∧ a < p.fontBase + 80 then fontBytes.getD (a - p.fontBase) 0 else 0)

/-- R150: `Construct` reports a configuration error exactly when one of the table's conditions holds, and the error it reports is one
whose condition holds. That the font overlaps `LOAD_BASE ..` exactly when `LOAD_BASE` lies below `FONT_BASE` + 80 is the model's reading of
that condition (DEDUCED, log entry 13). -/
def Obligations.ConfigurationErrors : Prop :=
  ∀ p image,
    let badLayout := p.loadBase % 2 = 1 ∨ p.memSize < p.loadBase + 2 ∨ p.loadBase < p.fontBase + 80
      ∨ p.memSize < p.fontBase + 80 ∨ p.memSize < 4096 ∨ 65536 < p.memSize
    ((∃ e, construct p image = .error e) ↔
      image.length % 2 = 1 ∨ p.memSize < p.loadBase + image.length ∨ badLayout ∨ p.stackDepth < 1 ∨ p.fbW < 8 ∨ p.fbH < 1)
    ∧ (construct p image = .error .oddProgramLength → image.length % 2 = 1)
    ∧ (construct p image = .error .programTooLarge → p.memSize < p.loadBase + image.length)
    ∧ (construct p image = .error .badMemoryLayout → badLayout)
    ∧ (construct p image = .error .badStackDepth → p.stackDepth < 1)
    ∧ (construct p image = .error .badFramebuffer → p.fbW < 8 ∨ p.fbH < 1)

/-- R148, R151: the reset value of every element the spec gives one. Reset is at `ALIASED_R15`, where R151 gives `F` no value; that the
field is 0 is the model's choice (log entry 5). -/
def Obligations.ResetValues : Prop :=
  (∀ r, State.reset.reg r = 0) ∧ State.reset.F = 0 ∧ State.reset.I = 0 ∧ State.reset.pc = 0x200 ∧ State.reset.SP = 0
    ∧ State.reset.DT = 0 ∧ State.reset.ST = 0 ∧ readSound State.reset = false
    ∧ (∀ py px, pixel State.reset.FB py px = false) ∧ State.reset.KEYS = 0 ∧ State.reset.status = .running
    ∧ ∀ a, State.reset.byteAt a = if 0x050 ≤ a ∧ a ≤ 0x09F then fontBytes.getD (a - 0x050) 0 else 0

/-- R48, R39, R40, R45, R146: the snapshot shows the registers, `F` under `SEPARATE`, `I`, the timers, the pc, `SP` and the entries in use,
the status, and the next instruction or the decode failure with the word; the framebuffer is read whole, and the sound output is 1 exactly
when `ST` is not 0; none of the three reads changes anything. What the block returns for each transaction is read from the state it leaves:
that a `Step`'s new status or fault is that state's status is the model's reading of R46 and R146 (log entry 17). -/
def Obligations.ReadsShowTheStateAndChangeNothing : Prop :=
  ∀ p s,
    act p .readSnapshot s = .next s ∧ act p .readFramebuffer s = .next s ∧ act p .readSound s = .next s
    ∧ readSound s = decide (s.ST.toNat ≠ 0) ∧ readFramebuffer s = s.FB
    ∧ (∀ rnd, reply p (.step rnd) s = .status s.status)
    ∧ (∀ image, reply p (.construct image) s = .nothing) ∧ reply p .tick s = .nothing
    ∧ (∀ k, reply p (.keyPress k) s = .nothing ∧ reply p (.keyRelease k) s = .nothing)
    ∧ reply p .readSnapshot s = .snapshot (readSnapshot p s) ∧ reply p .readFramebuffer s = .framebuffer s.FB
    ∧ reply p .readSound s = .sound (decide (s.ST.toNat ≠ 0))
    ∧ (let v := readSnapshot p s
       v.x = s.x ∧ (p.flagMode = .separate → v.F = some s.F) ∧ (p.flagMode = .aliasedR15 → v.F = none)
        ∧ v.I = s.I ∧ v.DT = s.DT ∧ v.ST = s.ST ∧ v.pc = s.pc ∧ v.SP = s.SP ∧ v.status = s.status
        ∧ (s.SP ≤ s.S.length → v.S.length = s.SP ∧ ∀ k, k < s.SP → v.S.getD k 0 = s.stackAt k)
        ∧ (∀ w, fetch p s = .ok w →
            (illegalWord p w = true → v.next = .undecodable w) ∧ (illegalWord p w = false → v.next = .instr (decode p w))))

/-! ## What no instruction changes (whole-machine rules) -/

/-- R26, R29: no instruction writes a register it does not name as its destination, except register 15 through the flag, for any
parameters; `exec` too. -/
def Obligations.RegistersChangeOnlyWhereNamed : Prop :=
  (∀ p rnd i s t r, execWith p rnd i s = .next t → ¬ writesReg p i r → t.reg r = s.reg r)
  ∧ (∀ i s t r, exec i s = .next t → ¬ writesReg params i r → t.reg r = s.reg r)

/-- R56: an instruction changes no byte of memory but those it stores to, `bcd` and `stor` alone storing, at the addresses their
meanings compute; every other byte reads as before. -/
def Obligations.MemoryChangesOnlyWhereStored : Prop :=
  ∀ i s t a, exec i s = .next t → ¬ storesAt i s a → t.byteAt a = s.byteAt a

/-- R40, R143: the framebuffer is changed by `draw` and `cls` alone, and by no host transaction but a step and a construction. -/
def Obligations.FramebufferChangesOnlyByDrawAndClear : Prop :=
  (∀ p rnd i s t, execWith p rnd i s = .next t → (∀ x y n, i ≠ .draw x y n) → i ≠ .cls → t.FB = s.FB)
  ∧ (∀ p a s t, act p a s = .next t → (∀ rnd, a ≠ .step rnd) → (∀ image, a ≠ .construct image) → t.FB = s.FB)

/-- R31: `I` is written by `ldi`, `addi`, `ldf`, and by `stor` and `load` when `LOADSTORE_INCREMENTS_I` is true; by nothing else. -/
def Obligations.AddressRegisterWriters : Prop :=
  ∀ p rnd i s t, execWith p rnd i s = .next t →
    (∀ nnn, i ≠ .ldi nnn) → (∀ x, i ≠ .addi x) → (∀ x, i ≠ .ldf x) →
    ((∀ x, i ≠ .stor x) ∧ (∀ x, i ≠ .load x) ∨ p.loadStoreIncrementsI = false) → t.I = s.I

/-- R34: no instruction but `call` and `ret` touches the stack or its pointer. That a `ret` leaves the entry it popped, which R34 then leaves
unconstrained, is the model's choice (log entry 3). -/
def Obligations.StackChangesOnlyByCallAndReturn : Prop :=
  ∀ p rnd i s t, execWith p rnd i s = .next t → (∀ nnn, i ≠ .call nnn) → t.S = s.S ∧ (i ≠ .ret → t.SP = s.SP)

/-- R38, R39, R41: a step writes `DT` only by `delay`, `ST` only by `sound`, and never the keypad. -/
def Obligations.TimersAndKeypadInAStep : Prop :=
  ∀ p rnd i s t, execWith p rnd i s = .next t →
    ((∀ x, i ≠ .delay x) → t.DT = s.DT) ∧ ((∀ x, i ≠ .sound x) → t.ST = s.ST) ∧ t.KEYS = s.KEYS

/-- R27, R28, R29, R30: a flag write puts 0 or 1, the bit it is given, in `F` under `SEPARATE` and in register 15 under `ALIASED_R15`, and
nowhere else, and a flag read gives that register. Under `SEPARATE` a completed `draw` leaves the collision in `F` and every register as it
was; only the flag writers change `F`, every flag write leaves 0 or 1 in it, and no instruction reads it: from two states that differ in `F`
alone an instruction answers states that differ in `F` alone. The values that the other flag writers give the flag stand in
`LogicResults`, `AddRegisterResult`, `SubtractResults` and `ShiftResults`, for any parameters, through this flag write. -/
def Obligations.TheSeparateFlagIsWrittenAndNeverRead : Prop :=
  (∀ p b s, (p.flagMode = .separate → writeFlag p b s = { s with F := bit b } ∧ readFlag p s = s.F)
    ∧ (p.flagMode = .aliasedR15 → writeFlag p b s = s.setReg 15 (bit b) ∧ readFlag p s = s.reg 15))
  ∧ (∀ rnd x y n s t, execWith { params with flagMode := .separate } rnd (.draw x y n) s = .next t → t.status = .running →
    t.x = s.x
      ∧ ((∃ py px, SpritePixel s x y n py px ∧ pixel s.FB py px = true) → t.F = 1)
      ∧ (¬ (∃ py px, SpritePixel s x y n py px ∧ pixel s.FB py px = true) → t.F = 0))
  ∧ ∀ p rnd i s t, p.flagMode = .separate → execWith p rnd i s = .next t →
    (¬ writesFlag p i → t.F = s.F)
    ∧ (writesFlag p i → (∀ f, t.status ≠ .halted f) → t.F = 0 ∨ t.F = 1)
    ∧ ∀ v, ∃ u, execWith p rnd i { s with F := v } = .next { t with F := u }

/-- R45: `rnd` reaches the state only through `rand`. -/
def Obligations.OnlyRandUsesRnd : Prop :=
  ∀ p i s, (∀ x nn, i ≠ .rand x nn) → (∀ r r', execWith p r i s = execWith p r' i s)
    ∧ (∀ rnd t, execWith p rnd i s = .next t → t.draws = s.draws)
end

