-- ==== Sys2Proof/Laws/Decode.lean ====
section
/-! SUPPORT. The fields of an encoded word are the operands it was made from, and a word is made of its fields (30_encoding.md R67). -/

namespace Sys2Proof

/-! A word from its nibbles -/

theorem field_bit (w : Word) (lo n i : Nat) (h : i < n) : (w.extractLsb' lo n).getLsbD i = w.getLsbD (lo + i) := by
  simp [h]

@[simp] theorem fieldOp_wordXY (op : Nibble) (x y : Reg) (fn : Nibble) : fieldOp (wordXY op x y fn) = op := by
  apply BitVec.eq_of_getLsbD_eq
  intro i h
  rw [fieldOp, field_bit _ _ _ _ h]
  simp only [wordXY, BitVec.getLsbD_append]
  interval_cases i <;> simp

@[simp] theorem fieldX_wordXY (op : Nibble) (x y : Reg) (fn : Nibble) : fieldX (wordXY op x y fn) = x := by
  apply BitVec.eq_of_getLsbD_eq
  intro i h
  rw [fieldX, field_bit _ _ _ _ h]
  simp only [wordXY, BitVec.getLsbD_append]
  interval_cases i <;> simp

@[simp] theorem fieldY_wordXY (op : Nibble) (x y : Reg) (fn : Nibble) : fieldY (wordXY op x y fn) = y := by
  apply BitVec.eq_of_getLsbD_eq
  intro i h
  rw [fieldY, field_bit _ _ _ _ h]
  simp only [wordXY, BitVec.getLsbD_append]
  interval_cases i <;> simp

@[simp] theorem fieldN_wordXY (op : Nibble) (x y : Reg) (fn : Nibble) : fieldN (wordXY op x y fn) = fn := by
  apply BitVec.eq_of_getLsbD_eq
  intro i h
  rw [fieldN, field_bit _ _ _ _ h]
  simp only [wordXY, BitVec.getLsbD_append]
  interval_cases i <;> simp

@[simp] theorem fieldOp_wordXNN (op : Nibble) (x : Reg) (nn : Byte) : fieldOp (wordXNN op x nn) = op := by
  apply BitVec.eq_of_getLsbD_eq
  intro i h
  rw [fieldOp, field_bit _ _ _ _ h]
  simp only [wordXNN, BitVec.getLsbD_append]
  interval_cases i <;> simp

@[simp] theorem fieldX_wordXNN (op : Nibble) (x : Reg) (nn : Byte) : fieldX (wordXNN op x nn) = x := by
  apply BitVec.eq_of_getLsbD_eq
  intro i h
  rw [fieldX, field_bit _ _ _ _ h]
  simp only [wordXNN, BitVec.getLsbD_append]
  interval_cases i <;> simp

@[simp] theorem fieldNN_wordXNN (op : Nibble) (x : Reg) (nn : Byte) : fieldNN (wordXNN op x nn) = nn := by
  apply BitVec.eq_of_getLsbD_eq
  intro i h
  rw [fieldNN, field_bit _ _ _ _ h]
  simp only [wordXNN, BitVec.getLsbD_append]
  interval_cases i <;> simp

/-- The two low nibbles of an `XNN` word are those of its byte. -/
theorem fieldY_wordXNN (op : Nibble) (x : Reg) (nn : Byte) : fieldY (wordXNN op x nn) = nn.extractLsb' 4 4 := by
  apply BitVec.eq_of_getLsbD_eq
  intro i h
  rw [fieldY, field_bit _ _ _ _ h]
  simp only [wordXNN, BitVec.getLsbD_append, BitVec.getLsbD_extractLsb']
  interval_cases i <;> simp

theorem fieldN_wordXNN (op : Nibble) (x : Reg) (nn : Byte) : fieldN (wordXNN op x nn) = nn.extractLsb' 0 4 := by
  apply BitVec.eq_of_getLsbD_eq
  intro i h
  rw [fieldN, field_bit _ _ _ _ h]
  simp only [wordXNN, BitVec.getLsbD_append, BitVec.getLsbD_extractLsb']
  interval_cases i <;> simp

@[simp] theorem fieldOp_address (op : Nibble) (nnn : Addr) : fieldOp (op ++ nnn) = op := by
  apply BitVec.eq_of_getLsbD_eq
  intro i h
  rw [fieldOp, field_bit _ _ _ _ h]
  simp only [BitVec.getLsbD_append]
  interval_cases i <;> simp

@[simp] theorem fieldNNN_address (op : Nibble) (nnn : Addr) : fieldNNN (op ++ nnn) = nnn := by
  apply BitVec.eq_of_getLsbD_eq
  intro i h
  rw [fieldNNN, field_bit _ _ _ _ h]
  simp only [BitVec.getLsbD_append]
  interval_cases i <;> simp

/-! A word is its fields -/

theorem word_eq_XY (w : Word) : wordXY (fieldOp w) (fieldX w) (fieldY w) (fieldN w) = w := by
  apply BitVec.eq_of_getLsbD_eq
  intro i h
  simp only [wordXY, fieldOp, fieldX, fieldY, fieldN, BitVec.getLsbD_append, BitVec.getLsbD_extractLsb']
  interval_cases i <;> simp

theorem word_eq_XNN (w : Word) : wordXNN (fieldOp w) (fieldX w) (fieldNN w) = w := by
  apply BitVec.eq_of_getLsbD_eq
  intro i h
  simp only [wordXNN, fieldOp, fieldX, fieldNN, BitVec.getLsbD_append, BitVec.getLsbD_extractLsb']
  interval_cases i <;> simp

theorem word_eq_address (w : Word) : fieldOp w ++ fieldNNN w = w := by
  apply BitVec.eq_of_getLsbD_eq
  intro i h
  simp only [fieldOp, fieldNNN, BitVec.getLsbD_append, BitVec.getLsbD_extractLsb']
  interval_cases i <;> simp

theorem byte_eq_nibbles (w : Word) : fieldNN w = fieldY w ++ fieldN w := by
  apply BitVec.eq_of_getLsbD_eq
  intro i h
  simp only [fieldNN, fieldY, fieldN, BitVec.getLsbD_append, BitVec.getLsbD_extractLsb']
  interval_cases i <;> simp

/-! Rows -/

/-- A row fits exactly when its four digits agree with the four nibbles (R71). -/
theorem rowFits_iff (r : Row) (w : Word) :
    rowFits r w = true ↔ digitFits r.d3 (fieldOp w) = true ∧ digitFits r.d2 (fieldX w) = true
      ∧ digitFits r.d1 (fieldY w) = true ∧ digitFits r.d0 (fieldN w) = true := by
  simp [rowFits, and_assoc]

/-- A decoder over a well-formed byte string takes exactly two bytes (R66, R77). -/
theorem decodeBytes_word (p : Params) (w : Word) (rest : List Byte) :
    decodeBytes p (wordBytes w ++ rest) = .ok (decode p w, rest) := by
  have : w.extractLsb' 8 8 ++ w.extractLsb' 0 8 = w := by
    apply BitVec.eq_of_getLsbD_eq
    intro i h
    simp only [BitVec.getLsbD_append, BitVec.getLsbD_extractLsb']
    interval_cases i <;> simp
  simp [wordBytes, decodeBytes, this]

end Sys2Proof
end

