-- ==== Sys2Proof/Laws/Memory.lean ====
section
/-! SUPPORT. What the memory operations do: a byte reads back as last written and every other byte as before (20_memory.md R60), every operation
keeps the canonical form, and a multi-byte transfer succeeds exactly when its last address is in memory (R51, R52, R56). -/

namespace Sys2Proof.Machine

/-! The list of cells -/

theorem listed_filter_ne (m : Memory) {a b : Nat} (h : b ≠ a) :
    Memory.listed (m.filter fun c => c.1 != a) b = Memory.listed m b := by
  induction m with
  | nil => rfl
  | cons c m ih =>
    by_cases hc : c.1 = a
    · have : c.1 ≠ b := fun e => h (e.symm.trans hc)
      simp [hc, Memory.listed, ih, hc ▸ this]
    · rw [List.filter_cons_of_pos (by simpa using hc)]
      simp [Memory.listed, ih]

theorem listed_filter_self (m : Memory) (a : Nat) : Memory.listed (m.filter fun c => c.1 != a) a = none := by
  induction m with
  | nil => rfl
  | cons c m ih => by_cases hc : c.1 = a <;> simp [hc, Memory.listed, ih]

theorem listed_insert_self (m : Memory) (a : Nat) (v : Byte) (h : Memory.listed m a = none) :
    Memory.listed (Memory.insert a v m) a = some v := by
  induction m with
  | nil => simp [Memory.insert, Memory.listed]
  | cons c m ih =>
    by_cases hc : c.1 = a
    · simp [Memory.listed, hc] at h
    · simp only [Memory.listed, hc, if_false] at h
      simp only [Memory.insert]
      split <;> simp [Memory.listed, hc, ih h]

theorem listed_insert_ne (m : Memory) {a b : Nat} (v : Byte) (h : b ≠ a) :
    Memory.listed (Memory.insert a v m) b = Memory.listed m b := by
  induction m with
  | nil => simp [Memory.insert, Memory.listed, h.symm]
  | cons c m ih =>
    simp only [Memory.insert]
    split <;> simp [Memory.listed, h.symm, ih]

/-! Read after write -/

/-- A byte reads as last written. -/
@[simp] theorem get_put_self (p : Params) (m : Memory) (a : Nat) (v : Byte) : Memory.get p (Memory.put p m a v) a = v := by
  unfold Memory.get Memory.put
  dsimp only
  split
  · next h => simp [listed_filter_self, h]
  · simp [listed_insert_self _ _ _ (listed_filter_self m a)]

/-- A write leaves every other byte. -/
theorem get_put_ne (p : Params) (m : Memory) {a b : Nat} (v : Byte) (h : b ≠ a) :
    Memory.get p (Memory.put p m a v) b = Memory.get p m b := by
  unfold Memory.get Memory.put
  dsimp only
  split
  · simp [listed_filter_ne m h]
  · simp [listed_insert_ne _ _ h, listed_filter_ne m h]

theorem get_put (p : Params) (m : Memory) (a b : Nat) (v : Byte) :
    Memory.get p (Memory.put p m a v) b = if b = a then v else Memory.get p m b := by
  split
  · next h => simp [h]
  · next h => exact get_put_ne p m v h

/-! The canonical form -/

/-- Rising addresses, as every later address exceeding the head's. -/
theorem rising_cons {c : Host.Cell} {m : Memory} :
    Memory.rising (c :: m) = true ↔ (∀ d ∈ m, c.1 < d.1) ∧ Memory.rising m = true := by
  induction m generalizing c with
  | nil => simp [Memory.rising]
  | cons d m ih =>
    simp only [Memory.rising, Bool.and_eq_true, decide_eq_true_eq, List.mem_cons, forall_eq_or_imp]
    rw [ih]
    constructor
    · rintro ⟨h, h1, h2⟩
      exact ⟨⟨h, fun e he => lt_trans h (h1 e he)⟩, h1, h2⟩
    · rintro ⟨⟨h, _⟩, h1, h2⟩
      exact ⟨h, h1, h2⟩

theorem rising_filter {m : Memory} (f : Host.Cell → Bool) (h : Memory.rising m = true) :
    Memory.rising (m.filter f) = true := by
  induction m with
  | nil => rfl
  | cons c m ih =>
    obtain ⟨h1, h2⟩ := rising_cons.1 h
    rw [List.filter_cons]
    split
    · exact rising_cons.2 ⟨fun d hd => h1 d (List.mem_of_mem_filter hd), ih h2⟩
    · exact ih h2

theorem mem_insert {m : Memory} {a : Nat} {v : Byte} {c : Host.Cell} (h : c ∈ Memory.insert a v m) : c = (a, v) ∨ c ∈ m := by
  induction m with
  | nil => simpa [Memory.insert] using h
  | cons d m ih =>
    simp only [Memory.insert] at h
    split at h
    · simpa using h
    · rcases List.mem_cons.1 h with rfl | h
      · simp
      · rcases ih h with h | h <;> simp [h]

theorem rising_insert {m : Memory} {a : Nat} (v : Byte) (h : Memory.rising m = true) (ha : ∀ c ∈ m, c.1 ≠ a) :
    Memory.rising (Memory.insert a v m) = true := by
  induction m with
  | nil => rfl
  | cons c m ih =>
    obtain ⟨h1, h2⟩ := rising_cons.1 h
    simp only [Memory.insert]
    split
    · next hlt =>
      refine rising_cons.2 ⟨fun d hd => ?_, h⟩
      rcases List.mem_cons.1 hd with rfl | hd
      · exact hlt
      · exact lt_trans hlt (h1 d hd)
    · next hge =>
      have hca : c.1 ≠ a := ha c (by simp)
      refine rising_cons.2 ⟨fun d hd => ?_, ih h2 fun d hd => ha d (by simp [hd])⟩
      rcases mem_insert hd with rfl | hd
      · simp only; omega
      · exact h1 d hd

/-- The canonical form, as two facts. -/
theorem wf_iff {p : Params} {m : Memory} :
    Memory.wf p m = true ↔ Memory.rising m = true ∧ ∀ c ∈ m, c.1 < p.memSize ∧ c.2 ≠ resetByte p c.1 := by
  simp [Memory.wf]

/-- A write below `MEM_SIZE` keeps the canonical form. -/
theorem put_wf {p : Params} {m : Memory} {a : Nat} (v : Byte) (h : Memory.wf p m = true) (ha : a < p.memSize) :
    Memory.wf p (Memory.put p m a v) = true := by
  obtain ⟨h1, h2⟩ := wf_iff.1 h
  have h3 : ∀ c ∈ m.filter (fun c => c.1 != a), c.1 < p.memSize ∧ c.2 ≠ resetByte p c.1 :=
    fun c hc => h2 c (List.mem_of_mem_filter hc)
  unfold Memory.put
  dsimp only
  split
  · exact wf_iff.2 ⟨rising_filter _ h1, h3⟩
  · next hv =>
    refine wf_iff.2 ⟨rising_insert v (rising_filter _ h1) fun c hc => ?_, fun c hc => ?_⟩
    · simpa using (List.mem_filter.1 hc).2
    · rcases mem_insert hc with rfl | hc
      · exact ⟨ha, hv⟩
      · exact h3 c hc

/-- Memory with nothing listed is canonical. -/
theorem wf_nil (p : Params) : Memory.wf p [] = true := rfl

/-- One-byte writes that answer keep the canonical form. -/
theorem memWrite1_wf {p : Params} {m m' : Memory} {a : Nat} {v : Byte} (h : Memory.wf p m = true)
    (hw : memWrite1 p m a v = .ok m') : Memory.wf p m' = true := by
  unfold memWrite1 at hw
  split at hw
  · simp at hw
  · cases hw; exact put_wf v h (by omega)

/-! Transfers of several bytes -/

/-- The bytes at ascending addresses. -/
def bytesFrom (p : Params) (m : Memory) (a n : Nat) : List Byte := (List.range n).map fun k => Memory.get p m (a + k)

theorem bytesFrom_succ (p : Params) (m : Memory) (a n : Nat) :
    bytesFrom p m a (n + 1) = Memory.get p m a :: bytesFrom p m (a + 1) n := by
  simp [bytesFrom, List.range_succ_eq_map, Nat.add_assoc, Nat.add_comm 1]

/-- Reading `n` bytes from `a` answers them when the last lies in memory. -/
theorem readBytes_ok (p : Params) (m : Memory) (a n : Nat) (h : n = 0 ∨ a + n ≤ p.memSize) :
    readBytes p m a n = .ok (bytesFrom p m a n) := by
  induction n generalizing a with
  | zero => rfl
  | succ n ih =>
    have h1 : ¬ p.memSize ≤ a := by omega
    simp only [readBytes, memRead1, h1, if_false, ih (a + 1) (by omega), bytesFrom_succ]

/-- Reading `n` bytes from `a` raises MemoryOutOfBounds with the lowest address outside memory when the last lies outside (R51, R131). -/
theorem readBytes_error (p : Params) (m : Memory) (a n : Nat) (hn : 0 < n) (h : p.memSize < a + n) :
    readBytes p m a n = .error ⟨.memoryOutOfBounds, some (max a p.memSize)⟩ := by
  induction n generalizing a with
  | zero => omega
  | succ n ih =>
    by_cases ha : p.memSize ≤ a
    · simp [readBytes, memRead1, ha]
    · rw [readBytes, ih (a + 1) (by omega) (by omega)]
      simp only [memRead1, ha, if_false]
      congr 3; omega

/-- Writing bytes from `a` answers a memory when the last address lies in memory: it holds them there, every other byte is as before, and
its form is kept. -/
theorem writeBytes_ok (p : Params) (m : Memory) (a : Nat) (bs : List Byte) (h : bs = [] ∨ a + bs.length ≤ p.memSize) :
    ∃ m', writeBytes p m a bs = .ok m'
      ∧ (∀ b, Memory.get p m' b = if a ≤ b ∧ b < a + bs.length then bs.getD (b - a) 0 else Memory.get p m b)
      ∧ (Memory.wf p m = true → Memory.wf p m' = true) := by
  induction bs generalizing m a with
  | nil => exact ⟨m, rfl, fun b => by simp [show ¬ (a ≤ b ∧ b < a) by omega], id⟩
  | cons v bs ih =>
    have h : a + (bs.length + 1) ≤ p.memSize := by simpa using h
    have h1 : ¬ p.memSize ≤ a := by omega
    obtain ⟨m', e, hg, hw⟩ := ih (Memory.put p m a v) (a + 1) (by right; omega)
    refine ⟨m', by simp [writeBytes, memWrite1, h1, e], fun b => ?_, fun hm => hw (put_wf v hm (by omega))⟩
    rw [hg, get_put, List.length_cons]
    by_cases hb : b = a
    · subst hb; simp
    · by_cases hr : a + 1 ≤ b ∧ b < a + 1 + bs.length
      · rw [if_pos hr, if_pos (by omega), show b - a = (b - (a + 1)) + 1 by omega, List.getD_cons_succ]
      · rw [if_neg hr, if_neg hb, if_neg (by omega)]

/-- Writing bytes from `a` raises MemoryOutOfBounds with the lowest address outside memory when the last lies outside (R52, R131). -/
theorem writeBytes_error (p : Params) (m : Memory) (a : Nat) (bs : List Byte) (hn : 0 < bs.length)
    (h : p.memSize < a + bs.length) :
    writeBytes p m a bs = .error ⟨.memoryOutOfBounds, some (max a p.memSize)⟩ := by
  induction bs generalizing m a with
  | nil => simp at hn
  | cons v bs ih =>
    by_cases ha : p.memSize ≤ a
    · simp [writeBytes, memWrite1, ha]
    · have : 0 < bs.length := by simp at h; omega
      simp only [writeBytes, memWrite1, ha, if_false]
      rw [ih _ (a + 1) this (by simp at h; omega)]
      congr 3; omega

/-- A multi-byte write that answers keeps the canonical form. -/
theorem writeBytes_wf {p : Params} {m m' : Memory} {a : Nat} {bs : List Byte} (h : Memory.wf p m = true)
    (hw : writeBytes p m a bs = .ok m') : Memory.wf p m' = true := by
  induction bs generalizing m a with
  | nil => cases hw; exact h
  | cons v bs ih =>
    simp only [writeBytes] at hw
    split at hw
    · simp at hw
    · next e => exact ih (memWrite1_wf h e) hw

/-- The fetch answers the two bytes at the pc, high byte first, when both lie in memory (R53). -/
theorem fetch_ok {p : Params} {s : State} (h : s.pc.toNat + 2 ≤ p.memSize) :
    fetch p s = .ok (Memory.get p s.M s.pc.toNat ++ Memory.get p s.M (s.pc.toNat + 1)) := by
  have h1 : ¬ p.memSize ≤ s.pc.toNat := by omega
  have h2 : ¬ p.memSize ≤ s.pc.toNat + 1 := by omega
  simp [fetch, memRead2, memRead1, h1, h2]

/-- Loading an image puts its bytes at ascending addresses and leaves every other byte (R147). -/
theorem get_loadImage (p : Params) (m : Memory) (a : Nat) (bs : List Byte) (b : Nat) :
    Memory.get p (loadImage p m a bs) b = if a ≤ b ∧ b < a + bs.length then bs.getD (b - a) 0 else Memory.get p m b := by
  induction bs generalizing m a with
  | nil => simp [loadImage, show ¬ (a ≤ b ∧ b < a) by omega]
  | cons v bs ih =>
    rw [loadImage, ih, get_put, List.length_cons]
    by_cases hb : b = a
    · subst hb; simp
    · by_cases hr : a + 1 ≤ b ∧ b < a + 1 + bs.length
      · rw [if_pos hr, if_pos (by omega), show b - a = (b - (a + 1)) + 1 by omega, List.getD_cons_succ]
      · rw [if_neg hr, if_neg hb, if_neg (by omega)]

/-- Loading an image that fits keeps the canonical form. -/
theorem loadImage_wf {p : Params} {m : Memory} (a : Nat) (bs : List Byte) (h : Memory.wf p m = true)
    (hb : a + bs.length ≤ p.memSize) : Memory.wf p (loadImage p m a bs) = true := by
  induction bs generalizing m a with
  | nil => exact h
  | cons v bs ih => exact ih (a + 1) (put_wf v h (by simp at hb; omega)) (by simp at hb; omega)

/-- Placing a word that lies in memory keeps the canonical form. -/
theorem placeWord_wf {p : Params} (w : Word) {s : State} (h : Memory.wf p s.M = true) (hp : s.pc.toNat + 2 ≤ p.memSize) :
    Memory.wf p (placeWord p w s).M = true :=
  put_wf _ (put_wf _ h (by omega)) (by omega)

end Sys2Proof.Machine
end

