-- ==== Sys2Proof/Laws/State.lean ====
section
/-! SUPPORT. One lemma per field per update: what each named update leaves in each field of State. -/

namespace Sys2Proof.Machine

@[simp] theorem setReg_x (s : State) (r : Reg) (v : Byte) : (s.setReg r v).x = s.x.set r.toNat v r.isLt := rfl
@[simp] theorem setReg_F (s : State) (r : Reg) (v : Byte) : (s.setReg r v).F = s.F := rfl
@[simp] theorem setReg_I (s : State) (r : Reg) (v : Byte) : (s.setReg r v).I = s.I := rfl
@[simp] theorem setReg_pc (s : State) (r : Reg) (v : Byte) : (s.setReg r v).pc = s.pc := rfl
@[simp] theorem setReg_S (s : State) (r : Reg) (v : Byte) : (s.setReg r v).S = s.S := rfl
@[simp] theorem setReg_SP (s : State) (r : Reg) (v : Byte) : (s.setReg r v).SP = s.SP := rfl
@[simp] theorem setReg_DT (s : State) (r : Reg) (v : Byte) : (s.setReg r v).DT = s.DT := rfl
@[simp] theorem setReg_ST (s : State) (r : Reg) (v : Byte) : (s.setReg r v).ST = s.ST := rfl
@[simp] theorem setReg_FB (s : State) (r : Reg) (v : Byte) : (s.setReg r v).FB = s.FB := rfl
@[simp] theorem setReg_KEYS (s : State) (r : Reg) (v : Byte) : (s.setReg r v).KEYS = s.KEYS := rfl
@[simp] theorem setReg_M (s : State) (r : Reg) (v : Byte) : (s.setReg r v).M = s.M := rfl
@[simp] theorem setReg_status (s : State) (r : Reg) (v : Byte) : (s.setReg r v).status = s.status := rfl
@[simp] theorem setReg_draws (s : State) (r : Reg) (v : Byte) : (s.setReg r v).draws = s.draws := rfl

@[simp] theorem loadRegs_x (s : State) (bs : List Byte) : (s.loadRegs bs).x = Vector.ofFn fun i => bs.getD i.val s.x[i] := rfl
@[simp] theorem loadRegs_F (s : State) (bs : List Byte) : (s.loadRegs bs).F = s.F := rfl
@[simp] theorem loadRegs_I (s : State) (bs : List Byte) : (s.loadRegs bs).I = s.I := rfl
@[simp] theorem loadRegs_pc (s : State) (bs : List Byte) : (s.loadRegs bs).pc = s.pc := rfl
@[simp] theorem loadRegs_S (s : State) (bs : List Byte) : (s.loadRegs bs).S = s.S := rfl
@[simp] theorem loadRegs_SP (s : State) (bs : List Byte) : (s.loadRegs bs).SP = s.SP := rfl
@[simp] theorem loadRegs_DT (s : State) (bs : List Byte) : (s.loadRegs bs).DT = s.DT := rfl
@[simp] theorem loadRegs_ST (s : State) (bs : List Byte) : (s.loadRegs bs).ST = s.ST := rfl
@[simp] theorem loadRegs_FB (s : State) (bs : List Byte) : (s.loadRegs bs).FB = s.FB := rfl
@[simp] theorem loadRegs_KEYS (s : State) (bs : List Byte) : (s.loadRegs bs).KEYS = s.KEYS := rfl
@[simp] theorem loadRegs_M (s : State) (bs : List Byte) : (s.loadRegs bs).M = s.M := rfl
@[simp] theorem loadRegs_status (s : State) (bs : List Byte) : (s.loadRegs bs).status = s.status := rfl
@[simp] theorem loadRegs_draws (s : State) (bs : List Byte) : (s.loadRegs bs).draws = s.draws := rfl

@[simp] theorem halt_x (w : Word) (s : State) (r : Raise) : (halt w s r).x = s.x := rfl
@[simp] theorem halt_F (w : Word) (s : State) (r : Raise) : (halt w s r).F = s.F := rfl
@[simp] theorem halt_I (w : Word) (s : State) (r : Raise) : (halt w s r).I = s.I := rfl
@[simp] theorem halt_pc (w : Word) (s : State) (r : Raise) : (halt w s r).pc = s.pc := rfl
@[simp] theorem halt_S (w : Word) (s : State) (r : Raise) : (halt w s r).S = s.S := rfl
@[simp] theorem halt_SP (w : Word) (s : State) (r : Raise) : (halt w s r).SP = s.SP := rfl
@[simp] theorem halt_DT (w : Word) (s : State) (r : Raise) : (halt w s r).DT = s.DT := rfl
@[simp] theorem halt_ST (w : Word) (s : State) (r : Raise) : (halt w s r).ST = s.ST := rfl
@[simp] theorem halt_FB (w : Word) (s : State) (r : Raise) : (halt w s r).FB = s.FB := rfl
@[simp] theorem halt_KEYS (w : Word) (s : State) (r : Raise) : (halt w s r).KEYS = s.KEYS := rfl
@[simp] theorem halt_M (w : Word) (s : State) (r : Raise) : (halt w s r).M = s.M := rfl
@[simp] theorem halt_status (w : Word) (s : State) (r : Raise) : (halt w s r).status = .halted ⟨r.reason, s.pc, w, r.detail⟩ := rfl
@[simp] theorem halt_draws (w : Word) (s : State) (r : Raise) : (halt w s r).draws = s.draws := rfl

@[simp] theorem tick_x (s : State) : (tick s).x = s.x := rfl
@[simp] theorem tick_F (s : State) : (tick s).F = s.F := rfl
@[simp] theorem tick_I (s : State) : (tick s).I = s.I := rfl
@[simp] theorem tick_pc (s : State) : (tick s).pc = s.pc := rfl
@[simp] theorem tick_S (s : State) : (tick s).S = s.S := rfl
@[simp] theorem tick_SP (s : State) : (tick s).SP = s.SP := rfl
@[simp] theorem tick_DT (s : State) : (tick s).DT = countDown s.DT := rfl
@[simp] theorem tick_ST (s : State) : (tick s).ST = countDown s.ST := rfl
@[simp] theorem tick_FB (s : State) : (tick s).FB = s.FB := rfl
@[simp] theorem tick_KEYS (s : State) : (tick s).KEYS = s.KEYS := rfl
@[simp] theorem tick_M (s : State) : (tick s).M = s.M := rfl
@[simp] theorem tick_status (s : State) : (tick s).status = s.status := rfl
@[simp] theorem tick_draws (s : State) : (tick s).draws = s.draws := rfl

@[simp] theorem keyRelease_x (k : Nat) (s : State) : (keyRelease k s).x = s.x := rfl
@[simp] theorem keyRelease_F (k : Nat) (s : State) : (keyRelease k s).F = s.F := rfl
@[simp] theorem keyRelease_I (k : Nat) (s : State) : (keyRelease k s).I = s.I := rfl
@[simp] theorem keyRelease_pc (k : Nat) (s : State) : (keyRelease k s).pc = s.pc := rfl
@[simp] theorem keyRelease_S (k : Nat) (s : State) : (keyRelease k s).S = s.S := rfl
@[simp] theorem keyRelease_SP (k : Nat) (s : State) : (keyRelease k s).SP = s.SP := rfl
@[simp] theorem keyRelease_DT (k : Nat) (s : State) : (keyRelease k s).DT = s.DT := rfl
@[simp] theorem keyRelease_ST (k : Nat) (s : State) : (keyRelease k s).ST = s.ST := rfl
@[simp] theorem keyRelease_FB (k : Nat) (s : State) : (keyRelease k s).FB = s.FB := rfl
@[simp] theorem keyRelease_KEYS (k : Nat) (s : State) : (keyRelease k s).KEYS = setKey s.KEYS k false := rfl
@[simp] theorem keyRelease_M (k : Nat) (s : State) : (keyRelease k s).M = s.M := rfl
@[simp] theorem keyRelease_status (k : Nat) (s : State) : (keyRelease k s).status = s.status := rfl
@[simp] theorem keyRelease_draws (k : Nat) (s : State) : (keyRelease k s).draws = s.draws := rfl

@[simp] theorem placeWord_x (p : Params) (w : Word) (s : State) : (placeWord p w s).x = s.x := rfl
@[simp] theorem placeWord_F (p : Params) (w : Word) (s : State) : (placeWord p w s).F = s.F := rfl
@[simp] theorem placeWord_I (p : Params) (w : Word) (s : State) : (placeWord p w s).I = s.I := rfl
@[simp] theorem placeWord_pc (p : Params) (w : Word) (s : State) : (placeWord p w s).pc = s.pc := rfl
@[simp] theorem placeWord_S (p : Params) (w : Word) (s : State) : (placeWord p w s).S = s.S := rfl
@[simp] theorem placeWord_SP (p : Params) (w : Word) (s : State) : (placeWord p w s).SP = s.SP := rfl
@[simp] theorem placeWord_DT (p : Params) (w : Word) (s : State) : (placeWord p w s).DT = s.DT := rfl
@[simp] theorem placeWord_ST (p : Params) (w : Word) (s : State) : (placeWord p w s).ST = s.ST := rfl
@[simp] theorem placeWord_FB (p : Params) (w : Word) (s : State) : (placeWord p w s).FB = s.FB := rfl
@[simp] theorem placeWord_KEYS (p : Params) (w : Word) (s : State) : (placeWord p w s).KEYS = s.KEYS := rfl
@[simp] theorem placeWord_M (p : Params) (w : Word) (s : State) : (placeWord p w s).M = Memory.put p (Memory.put p s.M s.pc.toNat (w.extractLsb' 8 8)) (s.pc.toNat + 1) (w.extractLsb' 0 8) := rfl
@[simp] theorem placeWord_status (p : Params) (w : Word) (s : State) : (placeWord p w s).status = .running := rfl
@[simp] theorem placeWord_draws (p : Params) (w : Word) (s : State) : (placeWord p w s).draws = s.draws := rfl

/-! A flag write changes the flag register alone, wherever it lies (R28). -/

@[simp] theorem writeFlag_I (p : Params) (b : Bool) (s : State) : (writeFlag p b s).I = s.I := by
  unfold writeFlag; cases p.flagMode <;> rfl

@[simp] theorem logicFlag_I (p : Params) (s : State) : (logicFlag p s).I = s.I := by
  unfold logicFlag; split <;> simp

@[simp] theorem writeFlag_pc (p : Params) (b : Bool) (s : State) : (writeFlag p b s).pc = s.pc := by
  unfold writeFlag; cases p.flagMode <;> rfl

@[simp] theorem logicFlag_pc (p : Params) (s : State) : (logicFlag p s).pc = s.pc := by
  unfold logicFlag; split <;> simp

@[simp] theorem writeFlag_S (p : Params) (b : Bool) (s : State) : (writeFlag p b s).S = s.S := by
  unfold writeFlag; cases p.flagMode <;> rfl

@[simp] theorem logicFlag_S (p : Params) (s : State) : (logicFlag p s).S = s.S := by
  unfold logicFlag; split <;> simp

@[simp] theorem writeFlag_SP (p : Params) (b : Bool) (s : State) : (writeFlag p b s).SP = s.SP := by
  unfold writeFlag; cases p.flagMode <;> rfl

@[simp] theorem logicFlag_SP (p : Params) (s : State) : (logicFlag p s).SP = s.SP := by
  unfold logicFlag; split <;> simp

@[simp] theorem writeFlag_DT (p : Params) (b : Bool) (s : State) : (writeFlag p b s).DT = s.DT := by
  unfold writeFlag; cases p.flagMode <;> rfl

@[simp] theorem logicFlag_DT (p : Params) (s : State) : (logicFlag p s).DT = s.DT := by
  unfold logicFlag; split <;> simp

@[simp] theorem writeFlag_ST (p : Params) (b : Bool) (s : State) : (writeFlag p b s).ST = s.ST := by
  unfold writeFlag; cases p.flagMode <;> rfl

@[simp] theorem logicFlag_ST (p : Params) (s : State) : (logicFlag p s).ST = s.ST := by
  unfold logicFlag; split <;> simp

@[simp] theorem writeFlag_FB (p : Params) (b : Bool) (s : State) : (writeFlag p b s).FB = s.FB := by
  unfold writeFlag; cases p.flagMode <;> rfl

@[simp] theorem logicFlag_FB (p : Params) (s : State) : (logicFlag p s).FB = s.FB := by
  unfold logicFlag; split <;> simp

@[simp] theorem writeFlag_KEYS (p : Params) (b : Bool) (s : State) : (writeFlag p b s).KEYS = s.KEYS := by
  unfold writeFlag; cases p.flagMode <;> rfl

@[simp] theorem logicFlag_KEYS (p : Params) (s : State) : (logicFlag p s).KEYS = s.KEYS := by
  unfold logicFlag; split <;> simp

@[simp] theorem writeFlag_M (p : Params) (b : Bool) (s : State) : (writeFlag p b s).M = s.M := by
  unfold writeFlag; cases p.flagMode <;> rfl

@[simp] theorem logicFlag_M (p : Params) (s : State) : (logicFlag p s).M = s.M := by
  unfold logicFlag; split <;> simp

@[simp] theorem writeFlag_status (p : Params) (b : Bool) (s : State) : (writeFlag p b s).status = s.status := by
  unfold writeFlag; cases p.flagMode <;> rfl

@[simp] theorem logicFlag_status (p : Params) (s : State) : (logicFlag p s).status = s.status := by
  unfold logicFlag; split <;> simp

@[simp] theorem writeFlag_draws (p : Params) (b : Bool) (s : State) : (writeFlag p b s).draws = s.draws := by
  unfold writeFlag; cases p.flagMode <;> rfl

@[simp] theorem logicFlag_draws (p : Params) (s : State) : (logicFlag p s).draws = s.draws := by
  unfold logicFlag; split <;> simp

/-! Registers read back as written (R25). -/

theorem reg_setReg (s : State) (r q : Reg) (v : Byte) : (s.setReg r v).reg q = if q = r then v else s.reg q := by
  simp only [State.reg, State.setReg, Vector.getElem_set]
  by_cases h : q = r
  · subst h; simp
  · have : r.toNat ≠ q.toNat := fun e => h (BitVec.eq_of_toNat_eq e.symm)
    simp [h, this]

@[simp] theorem reg_setReg_self (s : State) (r : Reg) (v : Byte) : (s.setReg r v).reg r = v := by
  simp [reg_setReg]

theorem reg_setReg_ne (s : State) {r q : Reg} (v : Byte) (h : q ≠ r) : (s.setReg r v).reg q = s.reg q := by
  simp [reg_setReg, h]

theorem reg_loadRegs (s : State) (bs : List Byte) (q : Reg) : (s.loadRegs bs).reg q = bs.getD q.toNat (s.reg q) := by
  simp [State.reg, State.loadRegs]

/-- Two states with the same registers read the same registers. -/
theorem reg_congr {s t : State} (h : s.x = t.x) (q : Reg) : s.reg q = t.reg q := by
  simp [State.reg, h]

/-- The flag write at `ALIASED_R15` is a write of register 15 (R28). -/
theorem writeFlag_aliased {p : Params} (h : p.flagMode = .aliasedR15) (b : Bool) (s : State) :
    writeFlag p b s = s.setReg 15 (if b then 1 else 0) := by
  simp [writeFlag, h, flagReg]

/-- The flag write at `SEPARATE` is a write of `F` (R28). -/
theorem writeFlag_separate {p : Params} (h : p.flagMode = .separate) (b : Bool) (s : State) :
    writeFlag p b s = { s with F := if b then 1 else 0 } := by
  simp [writeFlag, h]

/-- A flag write leaves every register but 15 (R26, R28). -/
theorem reg_writeFlag_ne (p : Params) (b : Bool) (s : State) {q : Reg} (h : q ≠ 15 ∨ p.flagMode ≠ .aliasedR15) :
    (writeFlag p b s).reg q = s.reg q := by
  unfold writeFlag
  cases hm : p.flagMode with
  | aliasedR15 => exact reg_setReg_ne s _ (h.resolve_right (by simp [hm]))
  | separate => rfl

/-- The flag read at `SEPARATE` reads `F` (R28). -/
theorem readFlag_separate {p : Params} (h : p.flagMode = .separate) (s : State) : readFlag p s = s.F := by
  simp only [readFlag, h]

/-- The flag read at `ALIASED_R15` reads register 15 (R28). -/
theorem readFlag_aliased {p : Params} (h : p.flagMode = .aliasedR15) (s : State) : readFlag p s = s.reg 15 := by
  simp only [readFlag, h, flagReg]

/-- A flag write leaves the separate flag 0 or 1 (R28). -/
theorem flag_writeFlag_le (p : Params) (b : Bool) (s : State) (h : s.F.toNat ≤ 1) : (writeFlag p b s).F.toNat ≤ 1 := by
  unfold writeFlag
  cases p.flagMode with
  | aliasedR15 => exact h
  | separate => cases b <;> simp

/-- What a key press leaves (R140): the keypad bit is set, and a waiting `input` completes. -/
theorem keyPress_of_blocked (k : Nat) {s : State} {x : Reg} (h : s.status = .blocked x) :
    keyPress k s = { { s with KEYS := setKey s.KEYS k true }.setReg x (BitVec.ofNat 8 k) with
      pc := s.pc + 2, status := .running } := by
  simp [keyPress, h]

/-- In any other status a press only sets the bit (R140). -/
theorem keyPress_of_not_blocked (k : Nat) {s : State} (h : ∀ x, s.status ≠ .blocked x) :
    keyPress k s = { s with KEYS := setKey s.KEYS k true } := by
  unfold keyPress
  cases hs : s.status with
  | running => rfl
  | blocked x => exact absurd hs (h x)
  | halted f => rfl

end Sys2Proof.Machine
end

