-- ==== Sys2Proof/Laws/Ops.lean ====
section
/-! SUPPORT. What the shared operations can do, each said once: commit, push, pop, the operands, the step. -/

namespace Sys2Proof.Machine

/-! The commit of an instruction (R46, R47, R132) -/

/-- A commit always answers a next state: a fault is a next state too. -/
theorem commit_next (p : Params) (w : Word) (s : State) (e : Except Raise Effect) : ∃ t, commit p w s e = .next t := by
  cases e with
  | error r => exact ⟨_, rfl⟩
  | ok e => simp only [commit]; split <;> exact ⟨_, rfl⟩

/-- What a commit answers: the halted state, or the pending writes with a legal pc and the effect's status. -/
theorem commit_cases {p : Params} {w : Word} {s t : State} {e : Except Raise Effect} (h : commit p w s e = .next t) :
    (∃ r, t = halt w s r) ∨
    (∃ e', e = .ok e' ∧ e'.npc % 2 = 0 ∧ e'.npc + 2 ≤ p.memSize ∧
      t = { e'.pending with pc := BitVec.ofNat 16 e'.npc, status := e'.status }) := by
  cases e with
  | error r => cases h; exact .inl ⟨r, rfl⟩
  | ok e' =>
    simp only [commit] at h
    split at h
    · next hp =>
      simp only [pcOk, Bool.and_eq_true, decide_eq_true_eq] at hp
      cases h; exact .inr ⟨e', rfl, hp.1, hp.2, rfl⟩
    · cases h; exact .inl ⟨_, rfl⟩

@[simp] theorem commit_error (p : Params) (w : Word) (s : State) (r : Raise) : commit p w s (.error r) = .next (halt w s r) := rfl

/-- A legal next pc commits. -/
theorem commit_ok {p : Params} {w : Word} {s : State} {e : Effect} (h : e.npc % 2 = 0) (hm : e.npc + 2 ≤ p.memSize) :
    commit p w s (.ok e) = .next { e.pending with pc := BitVec.ofNat 16 e.npc, status := e.status } := by
  simp [commit, pcOk, h, hm]

/-- An odd next pc, or one above `MEM_SIZE - 2`, raises PcOutOfBounds (R129). -/
theorem commit_bad_pc {p : Params} {w : Word} {s : State} {e : Effect} (h : e.npc % 2 = 1 ∨ p.memSize < e.npc + 2) :
    commit p w s (.ok e) = .next (halt w s ⟨.pcOutOfBounds, some e.npc⟩) := by
  have : pcOk p e.npc = false := by
    simp only [pcOk, Bool.and_eq_false_iff, decide_eq_false_iff_not]
    omega
  simp [commit, this]

/-! `exec` -/

/-- `exec` is the step's execution at the spec's parameter values and the free value. -/
theorem exec_eq_execWith (i : Instr) (s : State) : exec i s = execWith params (Config.rnd s.draws) i s := by
  cases i <;> rfl

/-- Executing an instruction always answers a next state. -/
theorem exec_next (i : Instr) (s : State) : ∃ t, exec i s = .next t := by
  rw [exec_eq_execWith]; exact commit_next _ _ _ _

/-! The stack (R36, R37) -/

theorem push_full {p : Params} (v : Nat) {s : State} (h : p.stackDepth ≤ s.SP) :
    push p v s = .error ⟨.stackOverflow, none⟩ := by
  simp [push, h]

theorem push_ok {p : Params} (v : Nat) {s : State} (h : s.SP < p.stackDepth) :
    push p v s = .ok { s with S := s.S.set s.SP (BitVec.ofNat 17 v), SP := s.SP + 1 } := by
  simp [push, Nat.not_le.2 h]

theorem pop_empty {s : State} (h : s.SP = 0) : pop s = .error ⟨.stackUnderflow, none⟩ := by
  simp [pop, h]

theorem pop_ok {s : State} (h : 0 < s.SP) :
    pop s = .ok ((s.stackAt (s.SP - 1)).toNat, { s with SP := s.SP - 1 }) := by
  simp [pop, Nat.pos_iff_ne_zero.1 h]

/-! The operands -/

theorem and_low_nibble (v : Byte) : (v &&& 0x0F).toNat = v.toNat % 16 := by
  rw [BitVec.toNat_and]; exact Nat.and_two_pow_sub_one_eq_mod v.toNat 4

/-- The masked key index is below 16 (R103). -/
theorem keyIndex_masked {p : Params} (h : p.keyIndexMask = true) (v : Byte) : keyIndex p v = .ok (v.toNat % 16) := by
  simp only [keyIndex, h, if_true, and_low_nibble]

theorem fontIndex_masked {p : Params} (h : p.fontIndexMask = true) (v : Byte) : fontIndex p v = v.toNat % 16 := by
  simp only [fontIndex, h, if_true, and_low_nibble]

/-! The framebuffer and the keypad -/

theorem grid_length (p : Params) (f : Nat → Nat → Bool) : (grid p f).length = p.fbH := by simp [grid]

theorem grid_columns (p : Params) (f : Nat → Nat → Bool) : ∀ row ∈ grid p f, row.length = p.fbW := by
  intro row h
  simp only [grid, List.mem_map] at h
  obtain ⟨py, _, rfl⟩ := h
  simp

/-- A pixel of a tabulated framebuffer. -/
theorem pixel_grid (p : Params) (f : Nat → Nat → Bool) {py px : Nat} (hy : py < p.fbH) (hx : px < p.fbW) :
    pixel (grid p f) py px = f py px := by
  simp [pixel, grid, List.getD_eq_getElem?_getD, hy, hx]

/-- Whether a sprite covers a pixel, by row and column of the sprite (R112). -/
theorem covers_iff (p : Params) (x0 y0 : Nat) (rows : List Byte) (py px : Nat) :
    covers p x0 y0 rows py px = true ↔
      ∃ r c, r < rows.length ∧ c < 8 ∧ (rows.getD r 0).getLsbD (7 - c) = true
        ∧ py = (y0 + r) % p.fbH ∧ px = (x0 + c) % p.fbW := by
  simp only [covers, List.any_eq_true, Bool.and_eq_true, beq_iff_eq, List.mem_range, spriteBit]
  constructor
  · rintro ⟨⟨b, r⟩, hm, hy, c, hc, hb, hx⟩
    obtain ⟨hr, rfl⟩ := List.mk_mem_zipIdx_iff_getElem?.1 hm |> List.getElem?_eq_some_iff.1
    exact ⟨r, c, hr, hc, by simpa [List.getD_eq_getElem?_getD, hr] using hb, hy.symm, hx.symm⟩
  · rintro ⟨r, c, hr, hc, hb, hy, hx⟩
    refine ⟨(rows[r], r), List.mk_mem_zipIdx_iff_getElem?.2 (by simp [hr]), hy.symm, c, hc, ?_, hx.symm⟩
    simpa [List.getD_eq_getElem?_getD, hr] using hb

/-- The collision output, by row and column of the sprite (R112). -/
theorem collision_iff (p : Params) (fb : List (List Bool)) (x0 y0 : Nat) (rows : List Byte) :
    collision p fb x0 y0 rows = true ↔
      ∃ r c, r < rows.length ∧ c < 8 ∧ (rows.getD r 0).getLsbD (7 - c) = true
        ∧ pixel fb ((y0 + r) % p.fbH) ((x0 + c) % p.fbW) = true := by
  simp only [collision, List.any_eq_true, Bool.and_eq_true, List.mem_range, spriteBit]
  constructor
  · rintro ⟨⟨b, r⟩, hm, c, hc, hb, hx⟩
    obtain ⟨hr, rfl⟩ := List.mk_mem_zipIdx_iff_getElem?.1 hm |> List.getElem?_eq_some_iff.1
    exact ⟨r, c, hr, hc, by simpa [List.getD_eq_getElem?_getD, hr] using hb, hx⟩
  · rintro ⟨r, c, hr, hc, hb, hx⟩
    refine ⟨(rows[r], r), List.mk_mem_zipIdx_iff_getElem?.2 (by simp [hr]), c, hc, ?_, hx⟩
    simpa [List.getD_eq_getElem?_getD, hr] using hb

/-- A keypad write changes the one bit (R41). -/
theorem getLsbD_setKey (keys : Word) {k : Nat} (hk : k < 16) (b : Bool) (j : Nat) :
    (setKey keys k b).getLsbD j = if j = k then b else keys.getLsbD j := by
  have h1 : (1#16 <<< k).getLsbD j = decide (j = k) := by
    rw [BitVec.getLsbD_shiftLeft, BitVec.getLsbD_one]
    by_cases hj : j = k
    · subst hj; simp [hk]
    · simp only [hj, decide_false, Bool.and_eq_false_iff]
      by_cases h : j < k
      · simp [h]
      · right; simp; omega
  unfold setKey
  cases b
  · by_cases hj : j = k
    · subst hj; simp [BitVec.getLsbD_and, BitVec.getLsbD_not, h1]
    · by_cases hlt : j < 16
      · simp only [Bool.false_eq_true, if_false, BitVec.getLsbD_and, BitVec.getLsbD_not, h1, hj, hlt]
        simp
      · simp [BitVec.getLsbD_of_ge _ _ (Nat.not_lt.1 hlt)]
  · by_cases hj : j = k
    · subst hj; simp [BitVec.getLsbD_or, h1]
    · simp [BitVec.getLsbD_or, h1, hj]

/-! The step -/

/-- A step's cases: no change when waiting or halted, a fetch outside memory, or the run of the decoded word (R46). -/
theorem stepVia_cases {p : Params} {run : Instr → State → Host.Outcome State Fault Refusal} {s t : State}
    (h : stepVia p run s = .next t) :
    (s.status ≠ .running ∧ t = s) ∨
    (s.status = .running ∧ ∃ w, fetch p s = .ok w ∧ run (decode p w) s = .next t) := by
  unfold stepVia at h
  cases hs : s.status with
  | halted f => rw [hs] at h; cases h; exact .inl ⟨by simp, rfl⟩
  | blocked x => rw [hs] at h; cases h; exact .inl ⟨by simp, rfl⟩
  | running =>
    rw [hs] at h
    cases hf : fetch p s with
    | error r => simp [hf] at h
    | ok w => simp only [hf] at h; exact .inr ⟨rfl, w, rfl, h⟩

end Sys2Proof.Machine
end

