-- ==== Sys2Proof/Laws/PerInstr.lean ====
section
/-! SUPPORT. A fact about every instruction as syntax, one lemma per constructor: its word agrees with the mask and the match that
spec/opcode_table.json gives its row. -/

namespace Sys2Proof.Laws.MatchesRow

/-- The mask and the match of the instruction's row of spec/opcode_table.json. -/
def maskAndMatch : Instr → Word × Word
  | .cls => (0xFFFF, 0x00E0)
  | .ret => (0xFFFF, 0x00EE)
  | .jmp _ => (0xF000, 0x1000)
  | .call _ => (0xF000, 0x2000)
  | .seImm _ _ => (0xF000, 0x3000)
  | .sneImm _ _ => (0xF000, 0x4000)
  | .seReg _ _ => (0xF00F, 0x5000)
  | .movImm _ _ => (0xF000, 0x6000)
  | .addImm _ _ => (0xF000, 0x7000)
  | .movReg _ _ => (0xF00F, 0x8000)
  | .or _ _ => (0xF00F, 0x8001)
  | .and _ _ => (0xF00F, 0x8002)
  | .xor _ _ => (0xF00F, 0x8003)
  | .addReg _ _ => (0xF00F, 0x8004)
  | .sub _ _ => (0xF00F, 0x8005)
  | .shr _ _ => (0xF00F, 0x8006)
  | .subn _ _ => (0xF00F, 0x8007)
  | .shl _ _ => (0xF00F, 0x800E)
  | .sneReg _ _ => (0xF00F, 0x9000)
  | .ldi _ => (0xF000, 0xA000)
  | .jmpo _ => (0xF000, 0xB000)
  | .rand _ _ => (0xF000, 0xC000)
  | .draw _ _ _ => (0xF000, 0xD000)
  | .skp _ => (0xF0FF, 0xE09E)
  | .sknp _ => (0xF0FF, 0xE0A1)
  | .ldd _ => (0xF0FF, 0xF007)
  | .input _ => (0xF0FF, 0xF00A)
  | .delay _ => (0xF0FF, 0xF015)
  | .sound _ => (0xF0FF, 0xF018)
  | .addi _ => (0xF0FF, 0xF01E)
  | .ldf _ => (0xF0FF, 0xF029)
  | .bcd _ => (0xF0FF, 0xF033)
  | .stor _ => (0xF0FF, 0xF055)
  | .load _ => (0xF0FF, 0xF065)
  | .invalid _ => (0x0000, 0x0000)

/-- The instruction's word matches its row. -/
def Statement (i : Instr) : Prop := encode i &&& (maskAndMatch i).1 = (maskAndMatch i).2

/-- Format `A`: the mask keeps the top digit. -/
theorem mask_address (op : Nibble) (nnn : Addr) : (op ++ nnn) &&& 0xF000#16 = op ++ 0x000#12 := by
  apply BitVec.eq_of_getLsbD_eq; intro i h
  simp only [BitVec.getLsbD_and, BitVec.getLsbD_append]
  interval_cases i <;> simp

/-- Format `XNN`: the mask keeps the top digit. -/
theorem mask_wordXNN (op : Nibble) (x : Reg) (nn : Byte) : wordXNN op x nn &&& 0xF000#16 = wordXNN op 0 0 := by
  apply BitVec.eq_of_getLsbD_eq; intro i h
  simp only [wordXNN, BitVec.getLsbD_and, BitVec.getLsbD_append]
  interval_cases i <;> simp

/-- Format `X`: the mask keeps the top digit and the low byte. -/
theorem mask_wordX (op : Nibble) (x : Reg) (nn : Byte) : wordXNN op x nn &&& 0xF0FF#16 = wordXNN op 0 nn := by
  apply BitVec.eq_of_getLsbD_eq; intro i h
  simp only [wordXNN, BitVec.getLsbD_and, BitVec.getLsbD_append]
  interval_cases i <;> simp

/-- Format `XYN`: the mask keeps the top digit. -/
theorem mask_wordXYN (op : Nibble) (x y : Reg) (n : Nibble) : wordXY op x y n &&& 0xF000#16 = wordXY op 0 0 0 := by
  apply BitVec.eq_of_getLsbD_eq; intro i h
  simp only [wordXY, BitVec.getLsbD_and, BitVec.getLsbD_append]
  interval_cases i <;> simp

/-- Format `XY`: the mask keeps the top and the low digit. -/
theorem mask_wordXY (op : Nibble) (x y : Reg) (fn : Nibble) : wordXY op x y fn &&& 0xF00F#16 = wordXY op 0 0 fn := by
  apply BitVec.eq_of_getLsbD_eq; intro i h
  simp only [wordXY, BitVec.getLsbD_and, BitVec.getLsbD_append]
  interval_cases i <;> simp

end Sys2Proof.Laws.MatchesRow

namespace Sys2Proof

theorem Laws.MatchesRow.cls : Laws.MatchesRow.Statement .cls := rfl

theorem Laws.MatchesRow.ret : Laws.MatchesRow.Statement .ret := rfl

theorem Laws.MatchesRow.jmp (nnn : Addr) : Laws.MatchesRow.Statement (.jmp nnn) := 
  (Laws.MatchesRow.mask_address ..).trans rfl

theorem Laws.MatchesRow.call (nnn : Addr) : Laws.MatchesRow.Statement (.call nnn) := 
  (Laws.MatchesRow.mask_address ..).trans rfl

theorem Laws.MatchesRow.seImm (x : Reg) (nn : Byte) : Laws.MatchesRow.Statement (.seImm x nn) := 
  (Laws.MatchesRow.mask_wordXNN ..).trans rfl

theorem Laws.MatchesRow.sneImm (x : Reg) (nn : Byte) : Laws.MatchesRow.Statement (.sneImm x nn) := 
  (Laws.MatchesRow.mask_wordXNN ..).trans rfl

theorem Laws.MatchesRow.seReg (x y : Reg) : Laws.MatchesRow.Statement (.seReg x y) := 
  (Laws.MatchesRow.mask_wordXY ..).trans rfl

theorem Laws.MatchesRow.movImm (x : Reg) (nn : Byte) : Laws.MatchesRow.Statement (.movImm x nn) := 
  (Laws.MatchesRow.mask_wordXNN ..).trans rfl

theorem Laws.MatchesRow.addImm (x : Reg) (nn : Byte) : Laws.MatchesRow.Statement (.addImm x nn) := 
  (Laws.MatchesRow.mask_wordXNN ..).trans rfl

theorem Laws.MatchesRow.movReg (x y : Reg) : Laws.MatchesRow.Statement (.movReg x y) := 
  (Laws.MatchesRow.mask_wordXY ..).trans rfl

theorem Laws.MatchesRow.or (x y : Reg) : Laws.MatchesRow.Statement (.or x y) := 
  (Laws.MatchesRow.mask_wordXY ..).trans rfl

theorem Laws.MatchesRow.and (x y : Reg) : Laws.MatchesRow.Statement (.and x y) := 
  (Laws.MatchesRow.mask_wordXY ..).trans rfl

theorem Laws.MatchesRow.xor (x y : Reg) : Laws.MatchesRow.Statement (.xor x y) := 
  (Laws.MatchesRow.mask_wordXY ..).trans rfl

theorem Laws.MatchesRow.addReg (x y : Reg) : Laws.MatchesRow.Statement (.addReg x y) := 
  (Laws.MatchesRow.mask_wordXY ..).trans rfl

theorem Laws.MatchesRow.sub (x y : Reg) : Laws.MatchesRow.Statement (.sub x y) := 
  (Laws.MatchesRow.mask_wordXY ..).trans rfl

theorem Laws.MatchesRow.shr (x y : Reg) : Laws.MatchesRow.Statement (.shr x y) := 
  (Laws.MatchesRow.mask_wordXY ..).trans rfl

theorem Laws.MatchesRow.subn (x y : Reg) : Laws.MatchesRow.Statement (.subn x y) := 
  (Laws.MatchesRow.mask_wordXY ..).trans rfl

theorem Laws.MatchesRow.shl (x y : Reg) : Laws.MatchesRow.Statement (.shl x y) := 
  (Laws.MatchesRow.mask_wordXY ..).trans rfl

theorem Laws.MatchesRow.sneReg (x y : Reg) : Laws.MatchesRow.Statement (.sneReg x y) := 
  (Laws.MatchesRow.mask_wordXY ..).trans rfl

theorem Laws.MatchesRow.ldi (nnn : Addr) : Laws.MatchesRow.Statement (.ldi nnn) := 
  (Laws.MatchesRow.mask_address ..).trans rfl

theorem Laws.MatchesRow.jmpo (nnn : Addr) : Laws.MatchesRow.Statement (.jmpo nnn) := 
  (Laws.MatchesRow.mask_address ..).trans rfl

theorem Laws.MatchesRow.rand (x : Reg) (nn : Byte) : Laws.MatchesRow.Statement (.rand x nn) := 
  (Laws.MatchesRow.mask_wordXNN ..).trans rfl

theorem Laws.MatchesRow.draw (x y : Reg) (n : Nibble) : Laws.MatchesRow.Statement (.draw x y n) := 
  (Laws.MatchesRow.mask_wordXYN ..).trans rfl

theorem Laws.MatchesRow.skp (x : Reg) : Laws.MatchesRow.Statement (.skp x) := 
  (Laws.MatchesRow.mask_wordX ..).trans rfl

theorem Laws.MatchesRow.sknp (x : Reg) : Laws.MatchesRow.Statement (.sknp x) := 
  (Laws.MatchesRow.mask_wordX ..).trans rfl

theorem Laws.MatchesRow.ldd (x : Reg) : Laws.MatchesRow.Statement (.ldd x) := 
  (Laws.MatchesRow.mask_wordX ..).trans rfl

theorem Laws.MatchesRow.input (x : Reg) : Laws.MatchesRow.Statement (.input x) := 
  (Laws.MatchesRow.mask_wordX ..).trans rfl

theorem Laws.MatchesRow.delay (x : Reg) : Laws.MatchesRow.Statement (.delay x) := 
  (Laws.MatchesRow.mask_wordX ..).trans rfl

theorem Laws.MatchesRow.sound (x : Reg) : Laws.MatchesRow.Statement (.sound x) := 
  (Laws.MatchesRow.mask_wordX ..).trans rfl

theorem Laws.MatchesRow.addi (x : Reg) : Laws.MatchesRow.Statement (.addi x) := 
  (Laws.MatchesRow.mask_wordX ..).trans rfl

theorem Laws.MatchesRow.ldf (x : Reg) : Laws.MatchesRow.Statement (.ldf x) := 
  (Laws.MatchesRow.mask_wordX ..).trans rfl

theorem Laws.MatchesRow.bcd (x : Reg) : Laws.MatchesRow.Statement (.bcd x) := 
  (Laws.MatchesRow.mask_wordX ..).trans rfl

theorem Laws.MatchesRow.stor (x : Reg) : Laws.MatchesRow.Statement (.stor x) := 
  (Laws.MatchesRow.mask_wordX ..).trans rfl

theorem Laws.MatchesRow.load (x : Reg) : Laws.MatchesRow.Statement (.load x) := 
  (Laws.MatchesRow.mask_wordX ..).trans rfl

theorem Laws.MatchesRow.invalid (w : Word) : Laws.MatchesRow.Statement (.invalid w) := BitVec.and_zero

end Sys2Proof
end

