-- ==== Sys2Proof/Tests/Slice0.lean ====
section
/-! SUPPORT. The model's own tests. Expected values are those of spec/95_test_vectors.md (the section is named in each comment) or the
bits of an encoding of 30_encoding.md R67, R70, written out. The second half gives each statement's hypotheses a concrete witness. -/

namespace Sys2Proof.Tests

open Machine

/-- What a projection reads from the next state, if there is one. -/
def after {α : Type} (o : Host.Outcome State Fault Refusal) (f : State → α) : Option α :=
  match o with
  | .next s => some (f s)
  | .fault _ => none
  | .refused _ => none

/-- What a request was turned away with. -/
def refusal (o : Host.Outcome State Fault Refusal) : Option Refusal :=
  match o with
  | .next _ => none
  | .fault _ => none
  | .refused r => some r

/-- The reset state with some registers set. -/
def regs (rs : List (Reg × Byte)) : State := rs.foldl (fun s rv => s.setReg rv.1 rv.2) State.reset

/-- The same at `pc` 0x300. -/
def at300 (rs : List (Reg × Byte)) : State := { regs rs with pc := 0x300 }

/-- A state with bytes of memory set. -/
def withBytes (a : Nat) (bs : List Byte) (s : State) : State := { s with M := loadImage params s.M a bs }

/-- A state with its pc moved. -/
def atPc (pc : Word) (s : State) : State := { s with pc := pc }

/-- Place a word at the pc and step once. -/
def run (w : Word) (s : State) : Host.Outcome State Fault Refusal := step (placeWord params w s)

/-- The same for other parameters and a given `rnd`. -/
def runWith (p : Params) (rnd : Byte) (w : Word) (s : State) : Host.Outcome State Fault Refusal :=
  stepWith p rnd (placeWord params w s)

/-- The status that a fault leaves, its detail given. -/
def haltedAs (r : FaultReason) (pc w : Word) (detail : Option Nat) : Status := .halted ⟨r, pc, w, detail⟩

/-- The set pixels of a row, as columns. -/
def setColumns (s : State) (py : Nat) : List Nat := (List.range 64).filter fun px => pixel s.FB py px

/-- A reset state with one pixel set. -/
def withPixel (py px : Nat) (s : State) : State := { s with FB := grid params fun a b => a == py && b == px }

/-! ## Decoding: one word per family or more, its bits written out field by field -/

theorem test_decode_movImm : decode params 0b0110_0001_00000101 = .movImm 1 5 := by decide
theorem test_decode_movReg : decode params 0b1000_1010_1011_0000 = .movReg 10 11 := by decide
theorem test_decode_addImm : decode params 0b0111_1111_00000001 = .addImm 15 1 := by decide
theorem test_decode_or : decode params 0b1000_0001_0010_0001 = .or 1 2 := by decide
theorem test_decode_and : decode params 0b1000_0001_0010_0010 = .and 1 2 := by decide
theorem test_decode_xor : decode params 0b1000_0001_0010_0011 = .xor 1 2 := by decide
theorem test_decode_addReg : decode params 0b1000_0001_0010_0100 = .addReg 1 2 := by decide
theorem test_decode_sub : decode params 0b1000_0001_0010_0101 = .sub 1 2 := by decide
theorem test_decode_shr : decode params 0b1000_1010_1011_0110 = .shr 10 11 := by decide
theorem test_decode_subn : decode params 0b1000_0001_0010_0111 = .subn 1 2 := by decide
theorem test_decode_shl : decode params 0b1000_0001_0010_1110 = .shl 1 2 := by decide
theorem test_decode_rand : decode params 0b1100_0011_00001111 = .rand 3 15 := by decide
theorem test_decode_seImm : decode params 0b0011_1111_00000001 = .seImm 15 1 := by decide
theorem test_decode_sneImm : decode params 0b0100_0001_00000101 = .sneImm 1 5 := by decide
theorem test_decode_seReg : decode params 0b0101_0001_0010_0000 = .seReg 1 2 := by decide
theorem test_decode_sneReg : decode params 0b1001_0001_0010_0000 = .sneReg 1 2 := by decide
theorem test_decode_skp : decode params 0b1110_0100_1001_1110 = .skp 4 := by decide
theorem test_decode_sknp : decode params 0b1110_0100_1010_0001 = .sknp 4 := by decide
theorem test_decode_jmp : decode params 0b0001_111111111111 = .jmp 4095 := by decide
theorem test_decode_call : decode params 0b0010_001000000100 = .call 516 := by decide
theorem test_decode_ret : decode params 0b0000_0000_1110_1110 = .ret := by decide
theorem test_decode_jmpo : decode params 0b1011_001100000000 = .jmpo 768 := by decide
theorem test_decode_cls : decode params 0b0000_0000_1110_0000 = .cls := by decide
theorem test_decode_draw : decode params 0b1101_0001_0010_0000 = .draw 1 2 0 := by decide
theorem test_decode_ldf : decode params 0b1111_0001_0010_1001 = .ldf 1 := by decide
theorem test_decode_ldd : decode params 0b1111_0110_0000_0111 = .ldd 6 := by decide
theorem test_decode_input : decode params 0b1111_0101_0000_1010 = .input 5 := by decide
theorem test_decode_delay : decode params 0b1111_0000_0001_0101 = .delay 0 := by decide
theorem test_decode_sound : decode params 0b1111_0010_0001_1000 = .sound 2 := by decide
theorem test_decode_ldi : decode params 0b1010_000100100011 = .ldi 291 := by decide
theorem test_decode_addi : decode params 0b1111_0001_0001_1110 = .addi 1 := by decide
theorem test_decode_bcd : decode params 0b1111_0000_0011_0011 = .bcd 0 := by decide
theorem test_decode_stor : decode params 0b1111_0001_0101_0101 = .stor 1 := by decide
theorem test_decode_load : decode params 0b1111_0010_0110_0101 = .load 2 := by decide

/-- Section 2.1: the words that are INVALID. -/
theorem test_decode_invalid_a : decode params 0x0000 = .invalid 0x0000
    ∧ decode params 0x0123 = .invalid 0x0123
    ∧ decode params 0x00E1 = .invalid 0x00E1
    ∧ decode params 0x5121 = .invalid 0x5121
    ∧ decode params 0x8128 = .invalid 0x8128
    ∧ decode params 0x812F = .invalid 0x812F := by decide

/-- The same. -/
theorem test_decode_invalid_b : decode params 0x9121 = .invalid 0x9121
    ∧ decode params 0xE19F = .invalid 0xE19F
    ∧ decode params 0xE1A2 = .invalid 0xE1A2
    ∧ decode params 0xF100 = .invalid 0xF100
    ∧ decode params 0xF175 = .invalid 0xF175
    ∧ decode params 0xFFFF = .invalid 0xFFFF := by decide

/-- Section 2.1: the extended words without `CATALOG_EXT`, and a minimum-catalog word beside them. -/
theorem test_decode_catalog : decode { params with catalogExt := false } 0xA123 = .invalid 0xA123
    ∧ decode { params with catalogExt := false } 0xF155 = .invalid 0xF155
    ∧ decode { params with catalogExt := false } 0xF129 = .ldf 1 := by decide

/-- R53: the high byte comes first, and the rest of the bytes is left. -/
theorem test_decodeBytes : decodeBytes params [0x61, 0x05, 0x62] = .ok (.movImm 1 5, [0x62]) := by decide

/-- A lone byte is no instruction. -/
theorem test_decodeBytes_truncated : decodeBytes params [0x61] = .error .truncated ∧ decodeBytes params [] = .error .truncated := by
  decide

theorem test_encodeBytes : encodeBytes (.draw 1 2 5) = [0xD1, 0x25] := by decide

/-- The opcode table's numbering: the two-digit operands of `mov rX NN` in its one word. -/
theorem test_decodeTableWord : decodeTableWord 16 0x6105 = some (.movImm 1 5) := by decide

/-- A word placed with `withFetchWord` is the one the next step runs, from reset. -/
theorem test_withFetchWord :
    after (step (State.reset.withFetchWord 16 0x6105)) (fun s => (s.reg 1, s.pc, s.status)) = some (5, 0x202, .running) := by decide

/-! ## Well-formedness: an ill-formed term for each check -/

/-- The sentinel's check: a legal word is no sentinel's. -/
theorem test_wellFormed_sentinel : wellFormed params (.invalid 0x6105) = false ∧ wellFormed params (.invalid 0x0000) = true := by
  decide

/-- The catalog's check. -/
theorem test_wellFormed_catalog : wellFormed { params with catalogExt := false } (.rand 3 15) = false
    ∧ wellFormed params (.rand 3 15) = true := by decide

/-! ## Register moves (section 2.2) -/

theorem test_movImm_flag : after (run 0x6FFF (at300 [])) (fun s => (s.reg 15, s.pc)) = some (0xFF, 0x302) := by decide
theorem test_movImm_last : after (run 0x6105 (atPc 0xFFE (regs []))) (fun s => (s.reg 1, s.pc, s.status))
    = some (0, 0xFFE, haltedAs .pcOutOfBounds 0xFFE 0x6105 (some 0x1000)) := by decide
theorem test_movReg : after (run 0x8AB0 (at300 [(10, 1), (11, 0x42)])) (fun s => (s.reg 10, s.reg 11)) = some (0x42, 0x42) := by
  decide

/-! ## ALU (section 2.3) -/

theorem test_addImm : after (run 0x7105 (at300 [(1, 0xFE)])) (fun s => (s.reg 1, s.reg 15, s.pc)) = some (3, 0, 0x302) := by decide
theorem test_addImm_flag : after (run 0x71FF (at300 [(1, 1), (15, 1)])) (fun s => (s.reg 1, s.reg 15)) = some (0, 1) := by decide
theorem test_or : after (run 0x8121 (at300 [(1, 0x0F), (2, 0xF0), (15, 1)])) (fun s => (s.reg 1, s.reg 15)) = some (0xFF, 1) := by
  decide
theorem test_or_resets : after (runWith { params with logicResetsFlag := true } 0 0x8121 (at300 [(1, 0x0F), (2, 0xF0), (15, 1)]))
    (fun s => (s.reg 1, s.reg 15)) = some (0xFF, 0) := by decide
theorem test_and : after (run 0x8122 (at300 [(1, 0x3C), (2, 0x0F)])) (fun s => s.reg 1) = some 0x0C := by decide
theorem test_xor : after (run 0x8123 (at300 [(1, 0xFF), (2, 0x0F)])) (fun s => s.reg 1) = some 0xF0 := by decide
theorem test_xor_flag : after (run 0x8F13 (at300 [(15, 1), (1, 3)])) (fun s => s.reg 15) = some 2 := by decide
theorem test_addReg_wraps : after (run 0x8124 (at300 [(1, 0xFF), (2, 1)])) (fun s => (s.reg 1, s.reg 15)) = some (0, 1) := by decide
theorem test_addReg_flag_last : after (run 0x8F14 (at300 [(15, 5), (1, 0xFE)])) (fun s => s.reg 15) = some 1 := by decide
theorem test_sub_borrow : after (run 0x8125 (at300 [(1, 3), (2, 5)])) (fun s => (s.reg 1, s.reg 15)) = some (0xFE, 0) := by decide
theorem test_sub_equal : after (run 0x8125 (at300 [(1, 5), (2, 5)])) (fun s => (s.reg 1, s.reg 15)) = some (0, 1) := by decide
theorem test_subn : after (run 0x8127 (at300 [(1, 3), (2, 5)])) (fun s => (s.reg 1, s.reg 15)) = some (2, 1) := by decide
theorem test_subn_borrow : after (run 0x8127 (at300 [(1, 5), (2, 3)])) (fun s => (s.reg 1, s.reg 15)) = some (0xFE, 0) := by decide
theorem test_shr_vx : after (run 0x8126 (at300 [(1, 4), (2, 0xFF)])) (fun s => (s.reg 1, s.reg 15)) = some (2, 0) := by decide
theorem test_shr_vy : after (runWith { params with shiftSrc := .vy } 0 0x8126 (at300 [(1, 4), (2, 0xFF)]))
    (fun s => (s.reg 1, s.reg 2, s.reg 15)) = some (0x7F, 0xFF, 1) := by decide
theorem test_shl : after (run 0x811E (at300 [(1, 0x81)])) (fun s => (s.reg 1, s.reg 15)) = some (2, 1) := by decide
theorem test_shl_no_carry : after (run 0x811E (at300 [(1, 0x7F)])) (fun s => (s.reg 1, s.reg 15)) = some (0xFE, 0) := by decide
theorem test_rand : after (runWith params 0xA7 0xC30F (at300 [])) (fun s => (s.reg 3, s.pc)) = some (7, 0x302) := by decide
theorem test_rand_illegal : after (runWith { params with catalogExt := false } 0x5A 0xC3FF (at300 [])) (fun s => (s.reg 3, s.status))
    = some (0, haltedAs .invalidOpcode 0x300 0xC3FF none) := by decide
/-- `FLAG_MODE` = `SEPARATE` (R27, R28): the carry goes to `F`, and register 15 stays. -/
theorem test_separate_flag : after (runWith { params with flagMode := .separate } 0 0x8124 (at300 [(1, 0x80), (2, 0x80), (15, 7)]))
    (fun s => (s.reg 1, s.F, s.reg 15)) = some (0, 1, 7) := by decide

/-! ## Skips (section 2.4) -/

theorem test_seImm : after (run 0x3105 (at300 [(1, 5)])) (fun s => s.pc) = some 0x304 := by decide
theorem test_seImm_end : after (run 0x3000 (atPc 0xFFC (regs []))) (fun s => (s.pc, s.status))
    = some (0xFFC, haltedAs .pcOutOfBounds 0xFFC 0x3000 (some 0x1000)) := by decide
theorem test_sneImm : after (run 0x4105 (at300 [(1, 5)])) (fun s => s.pc) = some 0x302 := by decide
theorem test_sneImm_skips : after (run 0x4105 (at300 [])) (fun s => s.pc) = some 0x304 := by decide
theorem test_seReg : after (run 0x5120 (at300 [(1, 1), (2, 2)])) (fun s => s.pc) = some 0x302 := by decide
theorem test_seReg_skips : after (run 0x5110 (at300 [(1, 9)])) (fun s => s.pc) = some 0x304 := by decide
theorem test_sneReg : after (run 0x9120 (at300 [(1, 1), (2, 2)])) (fun s => s.pc) = some 0x304 := by decide
theorem test_sneReg_same : after (run 0x9110 (at300 [(1, 1)])) (fun s => s.pc) = some 0x302 := by decide
theorem test_skp_low_nibble : after (run 0xE49E { at300 [(4, 0x15)] with KEYS := 0x20 }) (fun s => s.pc) = some 0x304 := by decide
theorem test_skp_unmasked :
    after (runWith { params with keyIndexMask := false } 0 0xE49E { at300 [(4, 0x15)] with KEYS := 0x20 }) (fun s => s.status)
      = some (haltedAs .keyIndexOutOfRange 0x300 0xE49E (some 0x15)) := by decide
theorem test_sknp : after (run 0xE4A1 (at300 [(4, 5)])) (fun s => s.pc) = some 0x304 := by decide
theorem test_sknp_pressed : after (run 0xE4A1 { at300 [(4, 5)] with KEYS := 0x20 }) (fun s => s.pc) = some 0x302 := by decide

/-! ## Control transfer (section 2.5) -/

theorem test_jmp : after (run 0x1FFE (atPc 0x202 (regs []))) (fun s => s.pc) = some 0xFFE := by decide
theorem test_jmp_bad : after (run 0x1FFF (atPc 0x202 (regs []))) (fun s => (s.pc, s.status))
    = some (0x202, haltedAs .pcOutOfBounds 0x202 0x1FFF (some 0xFFF)) := by decide
theorem test_call_end : after (run 0x2300 (atPc 0xFFE (regs []))) (fun s => (s.stackAt 0, s.SP, s.pc)) = some (0x1000, 1, 0x300) := by
  decide
theorem test_call_overflow : after (run 0x2203 { regs [] with SP := 16 }) (fun s => (s.SP, s.pc, s.status))
    = some (16, 0x200, haltedAs .stackOverflow 0x200 0x2203 none) := by decide
theorem test_ret : after (run 0x00EE { atPc 0x204 (regs []) with S := [0x202, 0x30A] ++ List.replicate 14 0, SP := 2 })
    (fun s => (s.SP, s.pc)) = some (1, 0x30A) := by decide
theorem test_ret_underflow : after (run 0x00EE (at300 [])) (fun s => (s.SP, s.status))
    = some (0, haltedAs .stackUnderflow 0x300 0x00EE none) := by decide
theorem test_jmpo_no_wrap : after (run 0xBFFE (at300 [(0, 2)])) (fun s => s.status)
    = some (haltedAs .pcOutOfBounds 0x300 0xBFFE (some 0x1000)) := by decide
theorem test_jmpo_vx : after (runWith { params with jumpOffsetReg := .vx } 0 0xB300 (at300 [(3, 6)])) (fun s => s.pc)
    = some 0x306 := by decide

/-! ## Display (section 2.6, E6) -/

theorem test_ldf : after (run 0xF029 (at300 [(0, 0x1A)])) (fun s => s.I) = some 0x082 := by decide
theorem test_ldf_unmasked : after (runWith { params with fontIndexMask := false } 0 0xF029 (at300 [(0, 0x1A)])) (fun s => s.I)
    = some 0x0D2 := by decide
theorem test_draw_wraps :
    after (run 0xD121 (withBytes 0x400 [0xFF] { at300 [(1, 60), (2, 31), (15, 1)] with I := 0x400 }))
      (fun s => (setColumns s 31, setColumns s 0, s.reg 15)) = some ([0, 1, 2, 3, 60, 61, 62, 63], [], 0) := by decide
theorem test_draw_collides :
    after (run 0xD121 (withPixel 0 7 (withBytes 0x400 [0x81] { at300 [] with I := 0x400 })))
      (fun s => (setColumns s 0, s.reg 15)) = some ([0], 1) := by decide
theorem test_draw_outside : after (run 0xD122 { atPc 0xFFE (regs []) with I := 0xFFF }) (fun s => s.status)
    = some (haltedAs .memoryOutOfBounds 0xFFE 0xD122 (some 0x1000)) := by decide
theorem test_cls : after (run 0x00E0 (withPixel 3 4 (at300 [(15, 1)]))) (fun s => (s.FB == State.reset.FB, s.reg 15))
    = some (true, 1) := by decide

/-! ## Timers and keypad (section 2.7, E5, E7) -/

theorem test_delay : after (run 0xF015 (at300 [(0, 3)])) (fun s => (s.DT, s.ST)) = some (3, 0) := by decide
theorem test_sound : after (run 0xF218 (at300 [(2, 30)])) (fun s => (s.ST, s.DT, readSound s)) = some (30, 0, true) := by decide
theorem test_ldd : after (run 0xF607 { at300 [(6, 7)] with DT := 2 }) (fun s => s.reg 6) = some 2 := by decide
theorem test_input : after (run 0xF50A (atPc 0xFFC (regs []))) (fun s => (s.pc, s.status)) = some (0xFFC, .blocked 5) := by decide
theorem test_input_last : after (run 0xF50A (atPc 0xFFE (regs []))) (fun s => s.status)
    = some (haltedAs .pcOutOfBounds 0xFFE 0xF50A (some 0x1000)) := by decide
theorem test_keyPress_completes : after (act params (.keyPress 11) { at300 [] with status := .blocked 5 })
    (fun s => (s.reg 5, s.KEYS, s.pc, s.status)) = some (11, 0x800, 0x302, .running) := by decide
theorem test_keyPress_running : after (act params (.keyPress 2) (at300 [])) (fun s => (s.KEYS, s.pc)) = some (4, 0x300) := by decide
theorem test_keyPress_refused : refusal (act params (.keyPress 16) (at300 [])) = some (.keyOutOfRange 16) := by decide
theorem test_keyRelease : after (act params (.keyRelease 3) { at300 [] with KEYS := 8, status := .blocked 5 })
    (fun s => (s.KEYS, s.status)) = some (0, .blocked 5) := by decide
theorem test_tick : after (act params .tick { at300 [] with DT := 255, ST := 1, status := .blocked 5 })
    (fun s => (s.DT, s.ST, s.status)) = some (254, 0, .blocked 5) := by decide
theorem test_tick_clamps : after (act params .tick (at300 [])) (fun s => (s.DT, s.ST)) = some (0, 0) := by decide

/-! ## Address register and memory transfers (section 2.8) -/

theorem test_ldi : after (run 0xA301 (at300 [])) (fun s => s.I) = some 0x301 := by decide
theorem test_addi_wraps : after (run 0xF11E { at300 [(1, 1)] with I := 0xFFFF }) (fun s => (s.I, s.reg 15)) = some (0, 0) := by decide
theorem test_addi : after (run 0xF11E { at300 [(1, 0x10)] with I := 0xFFF }) (fun s => (s.I, s.status)) = some (0x100F, .running) := by
  decide
theorem test_bcd : after (run 0xF033 { regs [(0, 254)] with I := 0x300 }) (fun s => (List.range 3).map fun k => s.byteAt (0x300 + k))
    = some [2, 5, 4] := by decide
theorem test_bcd_outside : after (run 0xF033 { regs [(0, 254)] with I := 0xFFE }) (fun s => (s.byteAt 0xFFE, s.status))
    = some (0, haltedAs .memoryOutOfBounds 0x200 0xF033 (some 0x1000)) := by decide
theorem test_stor : after (run 0xF155 { regs [(0, 0x12), (1, 0x34), (2, 0x56)] with I := 0x300 })
    (fun s => ((List.range 3).map fun k => s.byteAt (0x300 + k), s.I)) = some ([0x12, 0x34, 0], 0x300) := by decide
theorem test_stor_increments : after (runWith { params with loadStoreIncrementsI := true } 0 0xF255 { regs [] with I := 0x300 })
    (fun s => s.I) = some 0x303 := by decide
theorem test_load : after (run 0xF265 (withBytes 0x300 [2, 5, 4, 9] { regs [(3, 7)] with I := 0x300 }))
    (fun s => [s.reg 0, s.reg 1, s.reg 2, s.reg 3]) = some [2, 5, 4, 7] := by decide
theorem test_load_outside : after (run 0xFF65 { regs [(0, 7)] with I := 0xFF1 }) (fun s => (s.reg 0, s.status))
    = some (7, haltedAs .memoryOutOfBounds 0x200 0xFF65 (some 0x1000)) := by decide

/-! ## Invalid words, halt, reset and construction (section 2.9) -/

theorem test_invalid : after (run 0x8008 (regs [])) (fun s => s.status) = some (haltedAs .invalidOpcode 0x200 0x8008 none) := by decide
/-- `Construct([])`, `Step`. -/
theorem test_reset_step : after (step State.reset) (fun s => (s.status, s.pc))
    = some (haltedAs .invalidOpcode 0x200 0x0000 none, 0x200) := by decide
theorem test_reset_font : (List.range 5).map (fun k => State.reset.byteAt (0x050 + k)) = [0xF0, 0x90, 0x90, 0x90, 0xF0]
    ∧ (List.range 5).map (fun k => State.reset.byteAt (0x09B + k)) = [0xF0, 0x80, 0xF0, 0x80, 0x80] := by decide
theorem test_fault_codes : [FaultReason.invalidOpcode, .stackOverflow, .stackUnderflow, .memoryOutOfBounds, .pcOutOfBounds,
    .keyIndexOutOfRange].map faultCode = [1, 2, 3, 4, 5, 6] := by decide
theorem test_construct_odd : refusal (act params (.construct [0x60]) (at300 [])) = some (.badConfiguration .oddProgramLength) := by
  decide
/-- E2's image: the word at 0x200, and the machine is a fresh one. -/
theorem test_construct : after (act params (.construct [0x22, 0x04, 0x12, 0x06, 0x00, 0xEE]) { at300 [(1, 5)] with DT := 9 })
    (fun s => (fetch params s, s.reg 1, s.DT, s.pc)) = some (.ok 0x2204, 0, 0, 0x200) := by decide
theorem test_construct_sizes : configError params (List.replicate 3584 0) = none
    ∧ configError params (List.replicate 3586 0) = some .programTooLarge := by
  simp only [configError, List.length_replicate]; decide

/-! ## Witnesses: a concrete state and operands for the hypotheses of each statement of Certificates/Slice0/Obligations.lean, and for each of its
clauses at a boundary. The theorem of a statement bears its name. -/

/-- A projection that answers shows a next state. -/
theorem next_of_after {α : Type} {o : Host.Outcome State Fault Refusal} {f : State → α} {v : α} (h : after o f = some v) :
    ∃ t, o = .next t ∧ f t = v := by
  cases o with
  | next t => exact ⟨t, rfl, by simpa [after] using h⟩
  | fault _ => simp [after] at h
  | refused _ => simp [after] at h

/-- The next state itself, or the given one. -/
def nextOr (o : Host.Outcome State Fault Refusal) (d : State) : State :=
  match o with
  | .next s => s
  | .fault _ => d
  | .refused _ => d

theorem eq_nextOr {α : Type} {o : Host.Outcome State Fault Refusal} {f : State → α} {v : α} (d : State) (h : after o f = some v) :
    o = .next (nextOr o d) := by
  obtain ⟨t, rfl, -⟩ := next_of_after h
  rfl

/-- The invariant of a concrete running state, from facts that compute. -/
theorem inv_of {s : State} (hs : s.status = .running)
    (hp : s.pc.toNat % 2 = 0 ∧ s.pc.toNat + 2 ≤ 4096 ∧ s.S.length = 16 ∧ s.SP ≤ 16)
    (hk : ∀ k, k < s.SP → (s.stackAt k).toNat % 2 = 0 ∧ (s.stackAt k).toNat ≤ 4096)
    (hf : s.FB.length = 32 ∧ (s.FB.all fun row => row.length == 64) = true)
    (hm : s.F.toNat ≤ 1 ∧ Memory.wf params s.M = true) : Inv params s where
  pcEven := hp.1
  pcInMemory := hp.2.1
  waitFits := fun x h => by simp [hs] at h
  faultHere := fun f h => by simp [hs] at h
  stackLength := hp.2.2.1
  spBound := hp.2.2.2
  stackEntries := hk
  fbRows := hf.1
  fbColumns := fun row h => by simpa [params] using List.all_eq_true.mp hf.2 row h
  flagBit := hm.1
  memoryWf := hm.2

/-- `mov r1 5` at 0x300, one address on the stack. -/
def movState : State :=
  placeWord params 0x6105 { at300 [] with S := 0x202 :: List.replicate 15 0, SP := 1 }

theorem movState_inv : Inv params movState :=
  inv_of (by decide) (by decide) (by decide) (by decide) (by decide)

/-- A waiting state and a halted one. -/
def waiting : State := { at300 [] with status := .blocked 5 }
def halted : State := { at300 [] with status := haltedAs .invalidOpcode 0x300 0 none }

theorem witness_EncodeAndDecodeAreInverse :
    wellFormed params (.shr 10 11) = true ∧ wellFormed params (.draw 15 15 15) = true ∧ wellFormed params (.invalid 0xFFFF) = true := by
  decide

theorem witness_SentinelIsExactlyTheIllegalWords :
    (illegalWord params 0x00E1 = true ∧ illegalWord params 0x00E0 = false)
      ∧ illegalWord { params with catalogExt := false } 0xA123 = true ∧ illegalWord { params with catalogExt := false } 0xF129 = false := by
  decide

/-- A word fits the rows the map has for it, so disjointness is not that of rows that match nothing. -/
theorem witness_PatternsArePairwiseDisjoint :
    opcodeMap.length = 34 ∧ (opcodeMap.filter fun r => rowFits r 0x8AB6).length = 1
      ∧ (opcodeMap.filter fun r => rowFits r 0xF155).length = 1 := by decide

theorem witness_StepRunsTheDecodedInstruction :
    movState.status = .running ∧ movState.pc.toNat + 2 ≤ 4096
      ∧ decode params (movState.byteAt movState.pc.toNat ++ movState.byteAt (movState.pc.toNat + 1)) = .movImm 1 5
      ∧ wellFormed params (.movImm 1 5) = true := by decide

/-- The last word of memory is fetched too. -/
theorem witness_StepRunsTheDecodedInstruction_last :
    let s := placeWord params 0x1FFF (atPc 0xFFE (regs []))
    s.status = .running ∧ s.pc.toNat + 2 = 4096 ∧ decode params (s.byteAt 0xFFE ++ s.byteAt 0xFFF) = .jmp 4095 := by decide

theorem witness_WaitingAndHaltedStepsChangeNothing : waiting.status ≠ .running ∧ halted.status ≠ .running := by decide

theorem witness_StepAlwaysAnswers : Inv params movState := movState_inv

theorem witness_StepKeepsTheInvariant : Inv params movState ∧ ∃ t, step movState = .next t ∧ t.reg 1 = 5 :=
  ⟨movState_inv, next_of_after (by decide)⟩

theorem witness_TransactionsKeepTheInvariant : paramsOk params = true ∧ Inv params movState
    ∧ (∃ t, act params (.step 7) movState = .next t ∧ t.pc = 0x302)
    ∧ (∃ t, act params (.construct [0x12, 0x00]) movState = .next t ∧ t.pc = 0x200)
    ∧ ∃ t, act params (.keyPress 15) movState = .next t ∧ t.KEYS = 0x8000 :=
  ⟨by decide, movState_inv, next_of_after (by decide), next_of_after (by decide), next_of_after (by decide)⟩

/-- The smallest legal and the largest legal memory. -/
theorem witness_TransactionsKeepTheInvariant_sizes :
    paramsOk { params with stackDepth := 1, fbW := 8, fbH := 1, fontBase := 0, loadBase := 80 } = true
      ∧ paramsOk { params with memSize := 65536 } = true := by decide

theorem witness_FaultsCommitNothing :
    (∃ t, execWith params 0 (.jmp 0xFFF) (at300 []) = .next t ∧ t.status = haltedAs .pcOutOfBounds 0x300 0x1FFF (some 0xFFF))
      ∧ (at300 []).status = .running
      ∧ ∃ t, step (at300 []) = .next t ∧ t.status = haltedAs .invalidOpcode 0x300 0 none :=
  ⟨next_of_after (by decide), by decide, next_of_after (by decide)⟩

theorem witness_OwnFaultsComeBeforeThePcCheck :
    16 ≤ ({ regs [] with SP := 16 } : State).SP ∧ (regs []).SP = 0
      ∧ (0 < (2 : Nibble).toNat ∧ 4096 < ({ regs [] with I := 0xFFF } : State).I.toNat + (2 : Nibble).toNat)
      ∧ 4096 < ({ regs [] with I := 0xFFE } : State).I.toNat + 3
      ∧ 4096 < ({ regs [] with I := 0xFF1 } : State).I.toNat + ((15 : Reg).toNat + 1)
      ∧ ({ params with keyIndexMask := false } : Params).keyIndexMask = false ∧ 15 < ((regs [(4, 16)]).reg 4).toNat := by decide

theorem witness_OnlyConstructionLeavesHalted :
    (∃ f, halted.status = .halted f)
      ∧ (∃ t, act params .tick halted = .next t ∧ t.pc = 0x300)
      ∧ ∃ t, act params (.construct []) halted = .next t ∧ t.pc = 0x200 :=
  ⟨⟨_, rfl⟩, next_of_after (by decide), next_of_after (by decide)⟩

theorem witness_OnlyAKeyPressWakesBlocked :
    (∃ t, execWith params 0 (.input 5) (at300 []) = .next t ∧ t.status = .blocked 5)
      ∧ (∃ t, act params (.step 0) (placeWord params 0xF50A (at300 [])) = .next t ∧ t.status = .blocked 5)
      ∧ waiting.status = .blocked 5 ∧ (∃ t, act params (.keyRelease 0) waiting = .next t ∧ t.pc = 0x300) ∧ 15 < 16 :=
  ⟨next_of_after (by decide), next_of_after (by decide), by decide, next_of_after (by decide), by decide⟩

/-- The hypotheses of `SequentialWith` and `Sequential`, at their boundaries: the last pc that completes, and the last word. -/
abbrev SequentialMet : Prop :=
  SeqFits params (atPc 0xFFC (regs [])) ∧ LastWord params (atPc 0xFFE (regs []))
    ∧ ((atPc 0xFFC (regs [])).pc.toNat % 2 = 0 ∧ (atPc 0xFFC (regs [])).pc.toNat + 4 ≤ 4096) ∧ (atPc 0xFFE (regs [])).pc = 0xFFE

theorem sequentialMet : SequentialMet := by unfold SequentialMet SeqFits LastWord; decide

theorem witness_MoveResults : SequentialMet := sequentialMet
theorem witness_AddImmediateResult : SequentialMet := sequentialMet
theorem witness_LogicResults : SequentialMet ∧ params.logicResetsFlag = false
    ∧ ({ params with logicResetsFlag := true } : Params).logicResetsFlag = true := ⟨sequentialMet, by decide⟩
theorem witness_AddRegisterResult : SequentialMet := sequentialMet
theorem witness_SubtractResults : SequentialMet := sequentialMet
theorem witness_ShiftResults : SequentialMet ∧ params.shiftSrc = .vx ∧ ({ params with shiftSrc := .vy } : Params).shiftSrc ≠ .vx :=
  ⟨sequentialMet, by decide⟩
theorem witness_RandResult : SequentialMet := sequentialMet
theorem witness_FontAddressResult : SequentialMet ∧ params.fontBase + 5 * 255 < 65536 ∧ params.fontIndexMask = true
    ∧ ({ params with fontIndexMask := false } : Params).fontIndexMask = false := ⟨sequentialMet, by decide⟩
theorem witness_ClearResult : SequentialMet := sequentialMet
theorem witness_TimerAccessResults : SequentialMet := sequentialMet
theorem witness_AddressRegisterResults : SequentialMet := sequentialMet

/-- A skip that is taken reaches 0xFFE from 0xFFA and faults at 0xFFC; one that is not reaches 0xFFE from 0xFFC and faults at 0xFFE. -/
theorem witness_ValueSkipResults :
    (∀ a ∈ [0xFFA, 0xFFC, 0xFFE], (atPc (BitVec.ofNat 16 a) (regs [])).pc.toNat % 2 = 0
        ∧ (atPc (BitVec.ofNat 16 a) (regs [])).pc.toNat + 2 ≤ 4096)
      ∧ 0xFFA + 4 + 2 ≤ 4096 ∧ 4096 < 0xFFC + 4 + 2 ∧ 0xFFC + 2 + 2 ≤ 4096 ∧ 4096 < 0xFFE + 2 + 2
      ∧ (regs []).reg 1 = 0 ∧ (regs []).reg 1 ≠ 5 := by decide

theorem witness_KeySkipResults :
    ({ params with keyIndexMask := false } : Params).keyIndexMask = false
      ∧ (15 < ((regs [(4, 16)]).reg 4).toNat)
      ∧ (((regs [(4, 15)]).reg 4).toNat ≤ 15 ∧ (atPc 0xFFA (regs [(4, 15)])).pc.toNat % 2 = 0
          ∧ (atPc 0xFFA (regs [(4, 15)])).pc.toNat + 6 ≤ params.memSize)
      ∧ ({ regs [(4, 0x1F)] with KEYS := 0x8000 } : State).KEYS.getLsbD (((regs [(4, 0x1F)]).reg 4).toNat % 16) = true := by decide

/-- Targets 0xFFE, 0x207 and 0xFFF. -/
theorem witness_JumpResult :
    ((0xFFE : Addr).toNat % 2 = 0 ∧ (0xFFE : Addr).toNat ≤ 0xFFE) ∧ (0x207 : Addr).toNat % 2 = 1
      ∧ ((0xFFF : Addr).toNat % 2 = 1 ∧ 0xFFE < (0xFFF : Addr).toNat) := by decide

theorem witness_CallResult :
    (({ regs [] with SP := 15 } : State).S.length = 16 ∧ ({ regs [] with SP := 15 } : State).SP < 16
        ∧ (0xFFE : Addr).toNat % 2 = 0 ∧ (0xFFE : Addr).toNat ≤ 0xFFE)
      ∧ 16 ≤ ({ regs [] with SP := 16 } : State).SP ∧ (0x203 : Addr).toNat % 2 = 1 ∧ 0xFFE < (0xFFF : Addr).toNat := by decide

/-- An empty stack, and one whose top is a legal pc, or 0x1000, or odd. -/
theorem witness_ReturnResult :
    (regs []).SP = 0 ∧ 0 < ({ regs [] with SP := 1 } : State).SP
      ∧ (({ regs [] with S := [0xFFE], SP := 1 } : State).stackAt 0).toNat = 0xFFE
      ∧ (({ regs [] with S := [0x1000], SP := 1 } : State).stackAt 0).toNat = 0x1000
      ∧ (({ regs [] with S := [0x203], SP := 1 } : State).stackAt 0).toNat % 2 = 1 := by decide

/-- Sums 0xFFE, 0x1000 and 0x305; then the parameter with the register 3. -/
theorem witness_JumpOffsetResult :
    (0xFFC : Addr).toNat + ((regs [(0, 2)]).reg 0).toNat = 0xFFE ∧ 0xFFE < (0xFFE : Addr).toNat + ((regs [(0, 2)]).reg 0).toNat
      ∧ ((0x300 : Addr).toNat + ((regs [(0, 5)]).reg 0).toNat) % 2 = 1
      ∧ ({ params with jumpOffsetReg := .vx } : Params).jumpOffsetReg = .vx
      ∧ (0x300 : Addr).toNat + ((regs [(3, 6)]).reg (BitVec.ofNat 4 ((0x300 : Addr).toNat / 256))).toNat = 0x306
      ∧ params.memSize < (0xFFF : Addr).toNat + ((regs [(15, 1)]).reg (BitVec.ofNat 4 ((0xFFF : Addr).toNat / 256))).toNat + 2 := by
  decide

/-- Glyph 0's top row is `F0`: column 0 of row 0 is a pixel of the sprite and column 4 is none. -/
theorem glyph_pixel (s : State) (hM : s.M = []) (hI : s.I = 0x50) (h1 : s.reg 1 = 0) (h2 : s.reg 2 = 0) :
    SpritePixel s 1 2 1 0 0 ∧ ¬ SpritePixel s 1 2 1 0 4 := by
  constructor
  · refine ⟨0, 0, by decide, by decide, ?_, ?_, ?_⟩
    · simp only [State.byteAt, hM, hI]; decide
    · rw [h2]; rfl
    · rw [h1]; rfl
  · rintro ⟨r, c, hr, hc, hb, -, hpx⟩
    have hr0 : r = 0 := by have : (1 : Nibble).toNat = 1 := rfl; omega
    have hc4 : c = 4 := by rw [h1] at hpx; have : (0 : Byte).toNat = 0 := rfl; omega
    subst hr0 hc4
    simp only [State.byteAt, hM, hI] at hb
    exact absurd hb (by decide)

theorem pixel_clear (h w py px : Nat) : pixel (List.replicate h (List.replicate w false)) py px = false := by
  unfold pixel
  rw [List.getD_eq_getElem?_getD, List.getD_eq_getElem?_getD, List.getElem?_replicate]
  split
  · simp only [Option.getD_some, List.getElem?_replicate]; split <;> rfl
  · rfl

/-- No rows at any `I`; the last rows of memory; one row too many; the pcs; and the two collision clauses. -/
theorem witness_DrawResult :
    ((0 : Nibble).toNat = 0 ∨ ({ regs [] with I := 0xFFFF } : State).I.toNat + (0 : Nibble).toNat ≤ 4096)
      ∧ ({ regs [] with I := 0xFF1 } : State).I.toNat + (15 : Nibble).toNat ≤ 4096
      ∧ (0 < (15 : Nibble).toNat ∧ 4096 < ({ regs [] with I := 0xFF2 } : State).I.toNat + (15 : Nibble).toNat)
      ∧ SequentialMet
      ∧ (∃ py px, SpritePixel (withPixel 0 0 { regs [] with I := 0x50 }) 1 2 1 py px
          ∧ pixel (withPixel 0 0 { regs [] with I := 0x50 }).FB py px = true)
      ∧ ¬ ∃ py px, SpritePixel { regs [] with I := 0x50 } 1 2 1 py px ∧ pixel ({ regs [] with I := 0x50 } : State).FB py px = true := by
  refine ⟨by decide, by decide, by decide, sequentialMet, ⟨0, 0, (glyph_pixel _ rfl rfl (by decide) (by decide)).1, by decide⟩, ?_⟩
  rintro ⟨py, px, -, h⟩
  rw [show ({ regs [] with I := 0x50 } : State).FB = List.replicate 32 (List.replicate 64 false) from rfl, pixel_clear] at h
  exact absurd h (by decide)

/-- Glyph A drawn twice at row 0, column 0 (E6). -/
def drawState : State := { at300 [] with I := 0x82 }

theorem witness_DrawingTwiceRestoresTheFramebuffer : (1 : Reg) ≠ 15 ∧ (2 : Reg) ≠ 15 ∧ Inv params drawState
    ∧ ∃ t u, exec (.draw 1 2 5) drawState = .next t ∧ t.status = .running
      ∧ exec (.draw 1 2 5) t = .next u ∧ u.status = .running ∧ u.reg 15 = 1 := by
  have h1 : after (exec (.draw 1 2 5) drawState) State.status = some .running := by decide
  have h2 : after (exec (.draw 1 2 5) (nextOr (exec (.draw 1 2 5) drawState) drawState)) (fun s => (s.status, s.reg 15))
      = some (.running, 1) := by decide
  obtain ⟨t, ht, hts⟩ := next_of_after h1
  rw [ht] at h2
  obtain ⟨u, hu, hus⟩ := next_of_after h2
  exact ⟨by decide, by decide, inv_of (by decide) (by decide) (by decide) (by decide) (by decide), t, u, ht, hts, hu,
    (Prod.mk.inj hus).1, (Prod.mk.inj hus).2⟩

theorem witness_InputResult :
    ((atPc 0xFFC (regs [])).pc.toNat % 2 = 0 ∧ (atPc 0xFFC (regs [])).pc.toNat + 4 ≤ 4096)
      ∧ 4096 < (atPc 0xFFE (regs [])).pc.toNat + 4 ∧ waiting.status = .blocked 5 ∧ 15 < 16 := by decide

theorem witness_KeyPressResult : 16 ≤ 16 ∧ 15 < 16 ∧ (∀ x, (regs []).status ≠ .blocked x) ∧ (∀ x, halted.status ≠ .blocked x)
    ∧ waiting.status = .blocked 5 := by decide

theorem witness_KeyReleaseResult : 16 ≤ 16 ∧ 15 < 16 := by decide

theorem witness_DecimalStoreResult :
    ({ regs [] with I := 0xFFD } : State).I.toNat + 3 ≤ 4096 ∧ SequentialMet
      ∧ 4096 < ({ regs [] with I := 0xFFE } : State).I.toNat + 3 := ⟨by decide, sequentialMet, by decide⟩

theorem witness_RegisterStoreResult :
    ({ regs [] with I := 0xFF0 } : State).I.toNat + (15 : Reg).toNat < 4096 ∧ SequentialMet
      ∧ 4096 ≤ ({ regs [] with I := 0xFF1 } : State).I.toNat + (15 : Reg).toNat
      ∧ SeqFits { params with loadStoreIncrementsI := true } (atPc 0xFFC (regs [])) := ⟨by decide, sequentialMet, by decide, sequentialMet.1⟩

theorem witness_RegisterLoadResult :
    ({ regs [] with I := 0xFFF } : State).I.toNat + (0 : Reg).toNat < 4096 ∧ SequentialMet
      ∧ 4096 ≤ ({ regs [] with I := 0xFFF } : State).I.toNat + (1 : Reg).toNat
      ∧ SeqFits { params with loadStoreIncrementsI := true } (atPc 0xFFC (regs [])) := ⟨by decide, sequentialMet, by decide, sequentialMet.1⟩

/-- Section 2.8's round trip: two registers stored and loaded again. -/
def storState : State := { at300 [(0, 0x12), (1, 0x34)] with I := 0x400 }

theorem witness_LoadReadsBackWhatStorWrote : ∃ t u v, exec (.stor 1) storState = .next t ∧ t.status = .running ∧ u.M = t.M
    ∧ u.I = storState.I ∧ exec (.load 1) u = .next v ∧ v.status = .running ∧ v.reg 1 = 0x34 := by
  have h1 : after (exec (.stor 1) storState) State.status = some .running := by decide
  have h2 : after (exec (.load 1) { at300 [] with M := (nextOr (exec (.stor 1) storState) storState).M, I := 0x400 })
      (fun s => (s.status, s.reg 1)) = some (.running, 0x34) := by decide
  obtain ⟨t, ht, hts⟩ := next_of_after h1
  rw [ht] at h2
  obtain ⟨v, hv, hvs⟩ := next_of_after h2
  exact ⟨t, { at300 [] with M := t.M, I := 0x400 }, v, ht, hts, rfl, rfl, hv, (Prod.mk.inj hvs).1, (Prod.mk.inj hvs).2⟩

theorem witness_StoresAreSeenByTheNextFetch :
    (∃ t, exec (.stor 1) storState = .next t ∧ t.status = .running)
      ∧ (storState.I.toNat ≤ 0x400 ∧ 0x400 + 1 ≤ storState.I.toNat + (1 : Reg).toNat)
      ∧ ∃ t, exec (.bcd 1) storState = .next t ∧ t.status = .running :=
  ⟨next_of_after (by decide), by decide, next_of_after (by decide)⟩

theorem witness_SentinelResult : (at300 []).status = .running ∧ fetch params (at300 []) = .ok 0 ∧ illegalWord params 0 = true := by
  decide

theorem witness_MemoryReadResult : params.memSize ≤ 4096 ∧ 4095 < params.memSize ∧ 4095 + 1 = params.memSize
    ∧ 4094 + 1 < params.memSize := by decide

theorem witness_ConstructResult : configError params [] = none ∧ configError params [0x22, 0x00] = none
    ∧ configError params [0x22] = some .oddProgramLength := by decide

/-- The bytes of a constructed machine at the edges of the font and of an image of four bytes, and beyond them. -/
theorem witness_ConstructResult_edges :
    after (act params (.construct [0x11, 0x22, 0x33, 0x44]) State.reset)
      (fun s => ([0x04F, 0x050, 0x09F, 0x0A0, 0x1FF].map s.byteAt, [0x200, 0x203, 0x204, 0xFFF, 0x1000].map s.byteAt))
      = some ([0, 0xF0, 0x80, 0, 0], [0x11, 0x44, 0, 0, 0]) := by decide

/-- A legal configuration in which `F` exists, so that R147 gives it its value. -/
theorem witness_ConstructResult_separate : configError { params with flagMode := .separate } [0x22, 0x00] = none := by decide

/-- Every configuration error is reported for some configuration. -/
theorem witness_ConfigurationErrors :
    configError params [0] = some .oddProgramLength
      ∧ configError { params with memSize := 514 } [0, 0, 0, 0] = some .programTooLarge
      ∧ configError { params with fontBase := 0x1B1 } [] = some .badMemoryLayout
      ∧ configError { params with stackDepth := 0 } [] = some .badStackDepth
      ∧ configError { params with fbW := 7 } [] = some .badFramebuffer ∧ configError { params with fbH := 0 } [] = some .badFramebuffer := by
  decide

theorem witness_ReadsShowTheStateAndChangeNothing :
    params.flagMode = .aliasedR15 ∧ ({ params with flagMode := .separate } : Params).flagMode = .separate
      ∧ (movState.SP ≤ movState.S.length ∧ 0 < movState.SP)
      ∧ ((at300 []).SP ≤ (at300 []).S.length ∧ (at300 []).SP = 0)
      ∧ ((regs []).SP ≤ (regs []).S.length ∧ ({ regs [] with SP := 16 } : State).SP = (regs []).S.length)
      ∧ ((regs []).ST.toNat = 0 ∧ ({ regs [] with ST := 1 } : State).ST.toNat ≠ 0)
      ∧ (fetch params movState = .ok 0x6105 ∧ illegalWord params 0x6105 = false)
      ∧ (fetch params (at300 []) = .ok 0 ∧ illegalWord params 0 = true) := by decide

theorem witness_RegistersChangeOnlyWhereNamed :
    (∃ t, execWith params 0 (.load 3) { at300 [] with I := 0x50 } = .next t ∧ t.reg 3 = 0x90) ∧ ¬ writesReg params (.load 3) 4
      ∧ (∃ t, exec (.addReg 1 2) (at300 []) = .next t ∧ t.pc = 0x302) ∧ ¬ writesReg params (.addReg 1 2) 2 :=
  ⟨next_of_after (by decide), by unfold writesReg; decide, next_of_after (by decide), by unfold writesReg; decide⟩

/-- The bytes beside those `bcd` and `stor` store. -/
theorem witness_MemoryChangesOnlyWhereStored :
    (∃ t, exec (.bcd 0) storState = .next t ∧ t.pc = 0x302) ∧ ¬ storesAt (.bcd 0) storState 0x3FF ∧ ¬ storesAt (.bcd 0) storState 0x403
      ∧ (∃ t, exec (.stor 1) storState = .next t ∧ t.pc = 0x302) ∧ ¬ storesAt (.stor 1) storState 0x402
      ∧ storesAt (.stor 1) storState 0x401 :=
  ⟨next_of_after (by decide), by unfold storesAt; decide, by unfold storesAt; decide, next_of_after (by decide),
    by unfold storesAt; decide, by unfold storesAt; decide⟩

theorem witness_FramebufferChangesOnlyByDrawAndClear :
    (∃ t, execWith params 0 (.movImm 1 5) movState = .next t ∧ t.pc = 0x302) ∧ ∃ t, act params .tick movState = .next t ∧ t.pc = 0x300 :=
  ⟨next_of_after (by decide), next_of_after (by decide)⟩

/-- A register instruction, and `stor` with the parameter false. -/
theorem witness_AddressRegisterWriters :
    (∃ t, execWith params 0 (.movImm 1 5) movState = .next t ∧ t.pc = 0x302) ∧ params.loadStoreIncrementsI = false
      ∧ ∃ t, execWith params 0 (.stor 1) storState = .next t ∧ t.pc = 0x302 :=
  ⟨next_of_after (by decide), by decide, next_of_after (by decide)⟩

theorem witness_StackChangesOnlyByCallAndReturn : ∃ t, execWith params 0 .ret movState = .next t ∧ t.SP = 0 :=
  next_of_after (by decide)

theorem witness_TimersAndKeypadInAStep : ∃ t, execWith params 0 (.delay 1) (at300 [(1, 3)]) = .next t ∧ t.DT = 3 :=
  next_of_after (by decide)

theorem witness_TheSeparateFlagIsWrittenAndNeverRead :
    ({ params with flagMode := .separate } : Params).flagMode = .separate
      ∧ (∃ t, execWith { params with flagMode := .separate } 0 (.addReg 1 2) (at300 [(1, 0x80), (2, 0x80)]) = .next t ∧ t.F = 1)
      ∧ writesFlag { params with flagMode := .separate } (.addReg 1 2) ∧ ¬ writesFlag { params with flagMode := .separate } (.movReg 1 2)
      ∧ ∃ t, execWith { params with flagMode := .separate } 0 (.movReg 1 2) (at300 []) = .next t ∧ t.F = 0 :=
  ⟨by decide, next_of_after (by decide), trivial, not_false, next_of_after (by decide)⟩

/-- A `draw` that completes under `SEPARATE`, with a collision and without. -/
theorem witness_TheSeparateFlagIsWrittenAndNeverRead_draw :
    (∃ t, execWith { params with flagMode := .separate } 0 (.draw 1 2 1) (withPixel 0 0 { regs [(15, 7)] with I := 0x50 }) = .next t
        ∧ (t.status, t.F, t.reg 15) = (.running, 1, 7))
      ∧ (∃ t, execWith { params with flagMode := .separate } 0 (.draw 1 2 1) { regs [(15, 7)] with I := 0x50, F := 1 } = .next t
        ∧ (t.status, t.F, t.reg 15) = (.running, 0, 7))
      ∧ params.flagMode = .aliasedR15 :=
  ⟨next_of_after (by decide), next_of_after (by decide), by decide⟩

theorem witness_OnlyRandUsesRnd : ∃ t, execWith params 0 (.movImm 1 5) movState = .next t ∧ t.draws = 0 :=
  next_of_after (by decide)

end Sys2Proof.Tests
end

section
/-! PROOFS. The decoder against the encoder and against R73's list, for the step and the snapshot (30_encoding.md R71, R72, R73). -/

namespace Sys2Proof

/-! ## Rows and digits -/

@[simp] theorem digitFits_hex {c m : Nibble} : digitFits (.hex c) m = true ↔ m = c := by
  rw [digitFits, beq_iff_eq, eq_comm]

@[simp] theorem digitFits_any (m : Nibble) : digitFits .any m = true := rfl

/-! ## A decoded word encodes back (R72) -/

/-- The row's instruction, made from a word the row fits, encodes to that word. -/
def Row.KeepsWord (r : Row) : Prop := ∀ w, rowFits r w = true → encode (r.make w) = w

theorem rowA_keepsWord {op : Nibble} {ext : Bool} {mk : Addr → Instr} (h : ∀ nnn, encode (mk nnn) = op ++ nnn) :
    (rowA op ext mk).KeepsWord := by
  intro w hw
  obtain ⟨hop, -, -, -⟩ := (rowFits_iff _ w).1 hw
  obtain rfl := digitFits_hex.1 hop
  exact (h _).trans (word_eq_address w)

theorem rowXNN_keepsWord {op : Nibble} {ext : Bool} {mk : Reg → Byte → Instr}
    (h : ∀ x nn, encode (mk x nn) = wordXNN op x nn) : (rowXNN op ext mk).KeepsWord := by
  intro w hw
  obtain ⟨hop, -, -, -⟩ := (rowFits_iff _ w).1 hw
  obtain rfl := digitFits_hex.1 hop
  exact (h _ _).trans (word_eq_XNN w)

theorem rowXY_keepsWord {op fn : Nibble} {mk : Reg → Reg → Instr}
    (h : ∀ x y, encode (mk x y) = wordXY op x y fn) : (rowXY op fn mk).KeepsWord := by
  intro w hw
  obtain ⟨hop, -, -, hfn⟩ := (rowFits_iff _ w).1 hw
  obtain rfl := digitFits_hex.1 hop
  obtain rfl := digitFits_hex.1 hfn
  exact (h _ _).trans (word_eq_XY w)

theorem rowX_keepsWord {op hi lo : Nibble} {ext : Bool} {mk : Reg → Instr}
    (h : ∀ x, encode (mk x) = wordXNN op x (hi ++ lo)) : (rowX op hi lo ext mk).KeepsWord := by
  intro w hw
  obtain ⟨hop, -, hhi, hlo⟩ := (rowFits_iff _ w).1 hw
  obtain rfl := digitFits_hex.1 hop
  obtain rfl := digitFits_hex.1 hhi
  obtain rfl := digitFits_hex.1 hlo
  refine (h _).trans ?_
  rw [← byte_eq_nibbles, word_eq_XNN]

/-- A row of four fixed digits. -/
theorem fixedRow_keepsWord {a b c d : Nibble} {i : Instr} (h : encode i = wordXY a b c d) :
    Row.KeepsWord ⟨.hex a, .hex b, .hex c, .hex d, false, fun _ => i⟩ := by
  intro w hw
  obtain ⟨ha, hb, hc, hd⟩ := (rowFits_iff _ w).1 hw
  obtain rfl := digitFits_hex.1 ha
  obtain rfl := digitFits_hex.1 hb
  obtain rfl := digitFits_hex.1 hc
  obtain rfl := digitFits_hex.1 hd
  exact h.trans (word_eq_XY w)

/-- Format `XYN`, the row of `draw`. -/
theorem rowXYN_keepsWord {op : Nibble} {mk : Reg → Reg → Nibble → Instr} (h : ∀ x y n, encode (mk x y n) = wordXY op x y n) :
    Row.KeepsWord ⟨.hex op, .any, .any, .any, false, fun w => mk (fieldX w) (fieldY w) (fieldN w)⟩ := by
  intro w hw
  obtain ⟨hop, -, -, -⟩ := (rowFits_iff _ w).1 hw
  obtain rfl := digitFits_hex.1 hop
  exact (h _ _ _).trans (word_eq_XY w)

theorem opcodeMap_keepsWord : ∀ r ∈ opcodeMap, r.KeepsWord := by
  simp only [opcodeMap, List.forall_mem_append, List.forall_mem_cons, List.not_mem_nil, false_imp_iff, implies_true, and_true]
  exact ⟨⟨⟨⟨fixedRow_keepsWord rfl, fixedRow_keepsWord rfl, rowA_keepsWord fun _ => rfl, rowA_keepsWord fun _ => rfl,
          rowXNN_keepsWord fun _ _ => rfl, rowXNN_keepsWord fun _ _ => rfl, rowXY_keepsWord fun _ _ => rfl,
          rowXNN_keepsWord fun _ _ => rfl, rowXNN_keepsWord fun _ _ => rfl⟩,
        rowXY_keepsWord fun _ _ => rfl, rowXY_keepsWord fun _ _ => rfl, rowXY_keepsWord fun _ _ => rfl,
        rowXY_keepsWord fun _ _ => rfl, rowXY_keepsWord fun _ _ => rfl, rowXY_keepsWord fun _ _ => rfl,
        rowXY_keepsWord fun _ _ => rfl, rowXY_keepsWord fun _ _ => rfl, rowXY_keepsWord fun _ _ => rfl,
        rowXY_keepsWord fun _ _ => rfl⟩,
      rowA_keepsWord fun _ => rfl, rowA_keepsWord fun _ => rfl, rowXNN_keepsWord fun _ _ => rfl,
      rowXYN_keepsWord fun _ _ _ => rfl, rowX_keepsWord fun _ => rfl, rowX_keepsWord fun _ => rfl⟩,
    rowX_keepsWord fun _ => rfl, rowX_keepsWord fun _ => rfl, rowX_keepsWord fun _ => rfl, rowX_keepsWord fun _ => rfl,
    rowX_keepsWord fun _ => rfl, rowX_keepsWord fun _ => rfl, rowX_keepsWord fun _ => rfl, rowX_keepsWord fun _ => rfl,
    rowX_keepsWord fun _ => rfl⟩

/-- What `decode` answers: the word's sentinel where no row fits, else a row's instruction or the sentinel of a row left out (R71). -/
theorem decode_cases (p : Params) (w : Word) :
    (decode p w = .invalid w ∧ ∀ r ∈ opcodeMap, ¬ rowFits r w = true) ∨
    (∃ r ∈ opcodeMap, rowFits r w = true ∧ decode p w = if r.ext && !p.catalogExt then .invalid w else r.make w) := by
  unfold decode
  cases hf : opcodeMap.find? (fun r => rowFits r w) with
  | none => exact .inl ⟨rfl, by simpa using hf⟩
  | some r => exact .inr ⟨r, List.mem_of_find?_eq_some hf, List.find?_some (p := fun r => rowFits r w) hf, rfl⟩

/-- R72, for every word. -/
theorem encode_decode (p : Params) (w : Word) : encode (decode p w) = w := by
  obtain ⟨hd, -⟩ | ⟨r, hr, hf, hd⟩ := decode_cases p w <;> rw [hd]
  · rfl
  · split
    · rfl
    · exact opcodeMap_keepsWord r hr w hf

/-! ## The illegal words (R73) -/

/-- Two concatenations are equal when their parts are. -/
theorem append_eq_append_iff {m n : Nat} {a c : BitVec m} {b d : BitVec n} : a ++ b = c ++ d ↔ a = c ∧ b = d := by
  constructor
  · intro h
    have high := congrArg (BitVec.extractLsb' n m) h
    have low := congrArg (BitVec.extractLsb' 0 n) h
    rw [BitVec.extractLsb'_append_eq_left, BitVec.extractLsb'_append_eq_left] at high
    rw [BitVec.extractLsb'_append_eq_right, BitVec.extractLsb'_append_eq_right] at low
    exact ⟨high, low⟩
  · rintro ⟨rfl, rfl⟩; rfl

theorem byte_eq_two_nibbles (v : Byte) : v = v.extractLsb' 4 4 ++ v.extractLsb' 0 4 := by
  apply BitVec.eq_of_getLsbD_eq; intro i h
  simp only [BitVec.getLsbD_append, BitVec.getLsbD_extractLsb']
  interval_cases i <;> simp

theorem addr_eq_three_nibbles (v : Addr) : v = v.extractLsb' 8 4 ++ v.extractLsb' 4 4 ++ v.extractLsb' 0 4 := by
  apply BitVec.eq_of_getLsbD_eq; intro i h
  simp only [BitVec.getLsbD_append, BitVec.getLsbD_extractLsb']
  interval_cases i <;> simp

theorem fieldNNN_eq_nibbles (w : Word) : fieldNNN w = fieldX w ++ fieldY w ++ fieldN w := by
  apply BitVec.eq_of_getLsbD_eq; intro i h
  simp only [fieldNNN, fieldX, fieldY, fieldN, BitVec.getLsbD_append, BitVec.getLsbD_extractLsb']
  interval_cases i <;> simp

theorem fieldNN_eq_iff (w : Word) (v : Byte) : fieldNN w = v ↔ fieldY w = v.extractLsb' 4 4 ∧ fieldN w = v.extractLsb' 0 4 := by
  rw [byte_eq_nibbles, ← append_eq_append_iff, ← byte_eq_two_nibbles]

theorem fieldNNN_eq_iff (w : Word) (v : Addr) :
    fieldNNN w = v ↔ fieldX w = v.extractLsb' 8 4 ∧ fieldY w = v.extractLsb' 4 4 ∧ fieldN w = v.extractLsb' 0 4 := by
  rw [fieldNNN_eq_nibbles, ← and_assoc, ← append_eq_append_iff, ← append_eq_append_iff, ← addr_eq_three_nibbles]

/-- R73's list over the fields of R67. -/
theorem illegalWord_iff (p : Params) (w : Word) : illegalWord p w = true ↔
    (fieldOp w = 0x0 ∧ ¬ (fieldNNN w = 0x0E0 ∨ fieldNNN w = 0x0EE))
    ∨ ((fieldOp w = 0x5 ∨ fieldOp w = 0x9) ∧ fieldN w ≠ 0)
    ∨ (fieldOp w = 0x8 ∧ fieldN w ∉ legalMinor8)
    ∨ (fieldOp w = 0xE ∧ ¬ (fieldNN w = 0x9E ∨ fieldNN w = 0xA1))
    ∨ (fieldOp w = 0xF ∧ ¬ (fieldNN w ∈ legalMinMinorF ∨ fieldNN w ∈ legalExtMinorF))
    ∨ (p.catalogExt = false ∧ (fieldOp w = 0xA ∨ fieldOp w = 0xB ∨ fieldOp w = 0xC
        ∨ (fieldOp w = 0xE ∧ (fieldNN w = 0x9E ∨ fieldNN w = 0xA1))
        ∨ (fieldOp w = 0xF ∧ fieldNN w ∈ legalExtMinorF))) := by
  simp only [illegalWord, fieldOp, fieldN, fieldNN, fieldNNN, Bool.or_eq_true, Bool.and_eq_true, beq_iff_eq, bne_iff_ne,
    Bool.not_eq_true', List.contains_iff_mem, or_assoc, ne_eq, not_or, ← Bool.not_eq_true]

/-- A word that a row fits is illegal exactly when the row is "ext" and the configuration leaves the extended catalog out (R73, R76). -/
theorem illegalWord_of_rowFits (p : Params) (w : Word) :
    ∀ r ∈ opcodeMap, rowFits r w = true → (illegalWord p w = true ↔ r.ext = true ∧ p.catalogExt = false) := by
  simp only [opcodeMap, List.forall_mem_append, List.forall_mem_cons, List.not_mem_nil, false_imp_iff, implies_true, and_true]
  and_intros
  all_goals
    simp only [rowA, rowXNN, rowXY, rowX, rowFits_iff, digitFits_hex, digitFits_any]
    intro hf
    simp [illegalWord_iff, hf, fieldNN_eq_iff, fieldNNN_eq_iff, legalMinor8, legalMinMinorF, legalExtMinorF]

theorem nibble_cases (n : Nibble) : n = 0x0 ∨ n = 0x1 ∨ n = 0x2 ∨ n = 0x3 ∨ n = 0x4 ∨ n = 0x5 ∨ n = 0x6 ∨ n = 0x7 ∨ n = 0x8
    ∨ n = 0x9 ∨ n = 0xA ∨ n = 0xB ∨ n = 0xC ∨ n = 0xD ∨ n = 0xE ∨ n = 0xF := by
  decide +revert

/-- A word that no row fits is illegal (R73). The groups with one row for the whole group cannot be such a word. -/
theorem illegalWord_of_no_row (p : Params) {w : Word} (h : ∀ r ∈ opcodeMap, ¬ rowFits r w = true) : illegalWord p w = true := by
  rw [illegalWord_iff]
  simp only [rowFits_iff, opcodeMap, List.forall_mem_append, List.forall_mem_cons, rowA, rowXNN, rowXY, rowX, digitFits_hex,
    digitFits_any] at h
  rcases nibble_cases (fieldOp w) with
    hop | hop | hop | hop | hop | hop | hop | hop | hop | hop | hop | hop | hop | hop | hop | hop
  all_goals simp [hop] at h
  all_goals
    simp [hop, fieldNN_eq_iff, fieldNNN_eq_iff, legalMinor8, legalMinMinorF, legalExtMinorF]
    grind

/-- No row makes a sentinel (R70). -/
theorem make_ne_invalid (w v : Word) : ∀ r ∈ opcodeMap, r.make w ≠ .invalid v := by
  simp [opcodeMap, rowA, rowXNN, rowXY, rowX]

theorem decode_of_illegal {p : Params} {w : Word} (h : illegalWord p w = true) : decode p w = .invalid w := by
  obtain ⟨hd, -⟩ | ⟨r, hr, hf, hd⟩ := decode_cases p w
  · exact hd
  · obtain ⟨hext, hcat⟩ := (illegalWord_of_rowFits p w r hr hf).1 h
    simpa [hext, hcat] using hd

theorem decode_of_legal {p : Params} {w : Word} (h : illegalWord p w = false) (v : Word) : decode p w ≠ .invalid v := by
  obtain ⟨-, hno⟩ | ⟨r, hr, hf, hd⟩ := decode_cases p w
  · simp [illegalWord_of_no_row p hno] at h
  · have hin : ¬ (r.ext = true ∧ p.catalogExt = false) := fun hc => by
      simp [(illegalWord_of_rowFits p w r hr hf).2 hc] at h
    rw [hd, if_neg (by simpa using hin)]
    exact make_ne_invalid w v r hr

end Sys2Proof
end

section
/-! PROOFS. The statements of 10_state.md: what an instruction may write, the invariant, the step and the reads. -/

namespace Sys2Proof.Machine

/-! ## What an instruction may write

Each instruction's pending writes are a sequence of single writes, each allowed by the rule that names the writers of its element. The
frame of every element and the invariant are then inductions over those writes, and the instructions are split into cases once. -/

/-- The instruction is a writer of `I` (R31). -/
def WritesIndex (p : Params) (i : Instr) : Prop :=
  (∃ nnn, i = .ldi nnn) ∨ (∃ x, i = .addi x) ∨ (∃ x, i = .ldf x)
    ∨ (p.loadStoreIncrementsI = true ∧ ((∃ x, i = .stor x) ∨ ∃ x, i = .load x))

/-- The instruction is a writer of the framebuffer (R40). -/
def WritesFramebuffer (i : Instr) : Prop := i = .cls ∨ ∃ x y n, i = .draw x y n

/-- `u` is reached from `s` by single writes that the rules allow the instruction `i`: the rules of R26, R29, R31, R34, R38, R39, R40 and
R56, and the model's counter for `rand` alone. None of them touches the keypad, the pc or the status. -/
inductive PendingWrites (p : Params) (i : Instr) (s : State) : State → Prop where
  | none : PendingWrites p i s s
  | reg {u : State} (r : Reg) (v : Byte) : PendingWrites p i s u → writesReg p i r → PendingWrites p i s (u.setReg r v)
  | regs {u : State} (bs : List Byte) : PendingWrites p i s u → (∀ r : Reg, r.toNat < bs.length → writesReg p i r) →
      PendingWrites p i s (u.loadRegs bs)
  | flag {u : State} (b : Bool) : PendingWrites p i s u → writesFlag p i → PendingWrites p i s (writeFlag p b u)
  | index {u : State} (v : Word) : PendingWrites p i s u → WritesIndex p i → PendingWrites p i s { u with I := v }
  | framebuffer {u : State} (f : Nat → Nat → Bool) : PendingWrites p i s u → WritesFramebuffer i →
      PendingWrites p i s { u with FB := grid p f }
  | memory {u : State} {m : Memory} {a : Nat} {bs : List Byte} : PendingWrites p i s u → writeBytes p u.M a bs = .ok m →
      (∀ b, a ≤ b ∧ b < a + bs.length → storesAt i s b) → PendingWrites p i s { u with M := m }
  | push {u : State} (nnn : Addr) : PendingWrites p i s u → i = .call nnn → u.SP < p.stackDepth →
      PendingWrites p i s { u with S := u.S.set u.SP (BitVec.ofNat 17 (s.pc.toNat + 2)), SP := u.SP + 1 }
  | pop {u : State} : PendingWrites p i s u → i = .ret → PendingWrites p i s { u with SP := u.SP - 1 }
  | delayTimer {u : State} (v : Byte) (x : Reg) : PendingWrites p i s u → i = .delay x → PendingWrites p i s { u with DT := v }
  | soundTimer {u : State} (v : Byte) (x : Reg) : PendingWrites p i s u → i = .sound x → PendingWrites p i s { u with ST := v }
  | draw {u : State} (x : Reg) (nn : Byte) : PendingWrites p i s u → i = .rand x nn →
      PendingWrites p i s { u with draws := u.draws + 1 }

/-- What an instruction that raises nothing gives the step (R46): allowed writes with the status Running, or the wait of `input`, which
holds the pc after its check (R117). -/
inductive Completes (p : Params) (i : Instr) (s : State) : Effect → Prop where
  | runs {u : State} (npc : Nat) : PendingWrites p i s u → Completes p i s ⟨u, npc, .running⟩
  | waits (x : Reg) : s.pc.toNat + 4 ≤ p.memSize → Completes p i s ⟨s, s.pc.toNat, .blocked x⟩

section Writes

variable {p : Params} {i : Instr} {s u : State}

/-- The logic instructions' flag write is allowed where it happens (R18, R29). -/
theorem PendingWrites.logicFlag (h : PendingWrites p i s u) (hp : p.logicResetsFlag = true → writesFlag p i) :
    PendingWrites p i s (logicFlag p u) := by
  unfold Machine.logicFlag
  split
  · next hr => exact .flag false h (hp hr)
  · exact h

/-- What `stor` and `load` leave in `I` is an allowed write (R20, R31). -/
theorem PendingWrites.indexAfter (n : Nat) (h : PendingWrites p i s u) (hi : (∃ x, i = .stor x) ∨ ∃ x, i = .load x) :
    PendingWrites p i s { u with I := indexAfter p n u.I } := by
  by_cases hp : p.loadStoreIncrementsI = true
  · exact .index _ h (.inr (.inr (.inr ⟨hp, hi⟩)))
  · simpa [Machine.indexAfter, hp] using h

/-- A read that answers gives the bytes of memory it names (R51). -/
theorem readBytes_eq_bytesFrom {m : Memory} {a n : Nat} {bs : List Byte} (h : readBytes p m a n = .ok bs) :
    bs = bytesFrom p m a n := by
  by_cases hn : n = 0 ∨ a + n ≤ p.memSize
  · rw [readBytes_ok p m a n hn] at h
    exact (Except.ok.inj h).symm
  · rw [readBytes_error p m a n (by omega) (by omega)] at h
    cases h

@[simp] theorem bytesFrom_length (m : Memory) (a n : Nat) : (bytesFrom p m a n).length = n := by simp [bytesFrom]

theorem bytesFrom_getD (m : Memory) (a : Nat) {n k : Nat} (hk : k < n) : (bytesFrom p m a n).getD k 0 = Memory.get p m (a + k) := by
  simp [bytesFrom, List.getD_eq_getElem?_getD, hk]

/-- A `draw` that raises nothing has read its rows (R112). -/
theorem effDraw_ok {x y : Reg} {n : Nibble} {e : Effect} (h : effDraw p x y n s = .ok e) :
    let x0 := (s.reg x).toNat % p.fbW
    let y0 := (s.reg y).toNat % p.fbH
    let rows := bytesFrom p s.M s.I.toNat n.toNat
    e = sequential (writeFlag p (collision p s.FB x0 y0 rows) { s with FB := xorSprite p s.FB x0 y0 rows }) := by
  unfold effDraw at h
  dsimp only at h
  split at h
  · cases h
  · next rows hr =>
    rw [readBytes_eq_bytesFrom hr] at h
    exact (Except.ok.inj h).symm

/-- Every instruction that raises nothing makes allowed writes only. -/
theorem effect_completes {rnd : Byte} {e : Effect} (h : effect p rnd i s = .ok e) : Completes p i s e := by
  cases i with
  | jmp | jmpo | seImm | sneImm | seReg | sneReg => cases h; exact .runs _ .none
  | movImm x _ | addImm x _ | movReg x _ | ldd x => cases h; exact .runs _ (.reg x _ .none rfl)
  | or x _ | and x _ | xor x _ => cases h; exact .runs _ (.logicFlag (.reg x _ .none (.inl rfl)) id)
  | addReg x _ | sub x _ | shr x _ | subn x _ | shl x _ =>
    cases h; exact .runs _ (.flag _ (.reg x _ .none (.inl rfl)) trivial)
  | rand x nn => cases h; exact .runs _ (.draw x nn (.reg x _ .none rfl) rfl)
  | ldi nnn => cases h; exact .runs _ (.index _ .none (.inl ⟨nnn, rfl⟩))
  | addi x => cases h; exact .runs _ (.index _ .none (.inr (.inl ⟨x, rfl⟩)))
  | ldf x => cases h; exact .runs _ (.index _ .none (.inr (.inr (.inl ⟨x, rfl⟩))))
  | delay x => cases h; exact .runs _ (.delayTimer _ x .none rfl)
  | sound x => cases h; exact .runs _ (.soundTimer _ x .none rfl)
  | cls => cases h; exact .runs _ (.framebuffer _ .none (.inl rfl))
  | draw x y n =>
    obtain rfl := effDraw_ok h
    exact .runs _ (.flag _ (.framebuffer _ .none (.inr ⟨x, y, n, rfl⟩)) trivial)
  | ret =>
    by_cases h0 : s.SP = 0
    · simp [effect, effRet, pop_empty h0] at h
    · simp only [effect, effRet, pop_ok (Nat.pos_iff_ne_zero.2 h0)] at h
      cases h; exact .runs _ (.pop .none rfl)
  | call nnn =>
    by_cases hd : p.stackDepth ≤ s.SP
    · simp [effect, effCall, push_full _ hd] at h
    · simp only [effect, effCall, push_ok _ (Nat.not_le.1 hd)] at h
      cases h; exact .runs _ (.push nnn .none rfl (Nat.not_le.1 hd))
  | skp x | sknp x =>
    simp only [effect, effSkp, effSknp] at h
    split at h
    · cases h
    · cases h; exact .runs _ .none
  | input x =>
    simp only [effect, effInput] at h
    split at h
    · cases h
    · cases h; exact .waits x (by omega)
  | bcd x =>
    simp only [effect, effBcd] at h
    split at h
    · cases h
    · next m hm => cases h; exact .runs _ (.memory .none hm fun _ hb => hb)
  | stor x =>
    simp only [effect, effStor] at h
    split at h
    · cases h
    · next m hm =>
      cases h
      have stored : PendingWrites p (.stor x) s { s with M := m } := .memory .none hm fun _ hb => hb
      exact .runs _ (stored.indexAfter _ (.inl ⟨x, rfl⟩))
  | load x =>
    simp only [effect, effLoad] at h
    split at h
    · cases h
    · next bs hb =>
      obtain rfl := Except.ok.inj h
      have named : ∀ r : Reg, r.toNat < bs.length → r.toNat ≤ x.toNat := fun r hr => by
        rw [readBytes_eq_bytesFrom hb, bytesFrom_length] at hr; omega
      have loaded : PendingWrites p (.load x) s (s.loadRegs bs) := .regs bs .none named
      have indexed := loaded.indexAfter (x.toNat + 1) (.inr ⟨x, rfl⟩)
      rw [loadRegs_I] at indexed
      exact .runs _ indexed
  | invalid w => cases h

/-- What executing an instruction answers (R46, R132): the halted state, or a completion at a legal pc. -/
theorem execWith_cases {rnd : Byte} {t : State} (h : execWith p rnd i s = .next t) :
    (∃ r, t = halt (encode i) s r) ∨
    (∃ e, effect p rnd i s = .ok e ∧ Completes p i s e ∧ e.npc % 2 = 0 ∧ e.npc + 2 ≤ p.memSize ∧
      t = { e.pending with pc := BitVec.ofNat 16 e.npc, status := e.status }) := by
  obtain hr | ⟨e, he, heven, hmem, rfl⟩ := commit_cases h
  · exact .inl hr
  · exact .inr ⟨e, he, effect_completes he, heven, hmem, rfl⟩

theorem Completes.pendingWrites {e : Effect} (h : Completes p i s e) : PendingWrites p i s e.pending := by
  cases h with
  | runs _ hw => exact hw
  | waits => exact .none

/-- What the allowed writes keep, the instruction keeps, whether it completes or halts, unless it is the pc or the status. -/
theorem execWith_keeps {α : Type} {f : State → α} {rnd : Byte} {t : State} (h : execWith p rnd i s = .next t)
    (hf : ∀ (u : State) (n : Word) (st : Status), f { u with pc := n, status := st } = f u)
    (hw : ∀ u, PendingWrites p i s u → f u = f s) : f t = f s := by
  obtain ⟨r, rfl⟩ | ⟨e, -, he, -, -, rfl⟩ := execWith_cases h
  · exact hf s s.pc _
  · rw [hf]; exact hw _ he.pendingWrites

/-- A flag writer writes register 15 where that is the flag (R26, R29). -/
theorem writesReg_flag (hw : writesFlag p i) (hm : p.flagMode = .aliasedR15) : writesReg p i 15 := by
  cases i with
  | addReg | sub | shr | subn | shl => exact .inr ⟨rfl, hm⟩
  | or | and | xor => exact .inr ⟨rfl, hm, hw⟩
  | draw => exact ⟨rfl, hm⟩
  | _ => exact hw.elim

/-! ### The frame of each element -/

namespace PendingWrites

theorem status_eq (h : PendingWrites p i s u) : u.status = s.status := by
  induction h with
  | none => rfl
  | _ => next ih => simpa using ih

/-- No allowed write touches the keypad (R41). -/
theorem keys_eq (h : PendingWrites p i s u) : u.KEYS = s.KEYS := by
  induction h with
  | none => rfl
  | _ => next ih => simpa using ih

theorem index_eq (h : PendingWrites p i s u) (hi : ¬ WritesIndex p i) : u.I = s.I := by
  induction h with
  | none => rfl
  | index v _ hp => exact absurd hp hi
  | _ => next ih => simpa using ih

theorem framebuffer_eq (h : PendingWrites p i s u) (hi : ¬ WritesFramebuffer i) : u.FB = s.FB := by
  induction h with
  | none => rfl
  | framebuffer f _ hp => exact absurd hp hi
  | _ => next ih => simpa using ih

theorem stack_eq (h : PendingWrites p i s u) (hi : ∀ nnn, i ≠ .call nnn) : u.S = s.S := by
  induction h with
  | none => rfl
  | push nnn _ hp => exact absurd hp (hi nnn)
  | _ => next ih => simpa using ih

theorem stackPointer_eq (h : PendingWrites p i s u) (hc : ∀ nnn, i ≠ .call nnn) (hr : i ≠ .ret) : u.SP = s.SP := by
  induction h with
  | none => rfl
  | push nnn _ hp => exact absurd hp (hc nnn)
  | pop _ hp => exact absurd hp hr
  | _ => next ih => simpa using ih

theorem delayTimer_eq (h : PendingWrites p i s u) (hi : ∀ x, i ≠ .delay x) : u.DT = s.DT := by
  induction h with
  | none => rfl
  | delayTimer v x _ hp => exact absurd hp (hi x)
  | _ => next ih => simpa using ih

theorem soundTimer_eq (h : PendingWrites p i s u) (hi : ∀ x, i ≠ .sound x) : u.ST = s.ST := by
  induction h with
  | none => rfl
  | soundTimer v x _ hp => exact absurd hp (hi x)
  | _ => next ih => simpa using ih

theorem draws_eq (h : PendingWrites p i s u) (hi : ∀ x nn, i ≠ .rand x nn) : u.draws = s.draws := by
  induction h with
  | none => rfl
  | draw x nn _ hp => exact absurd hp (hi x nn)
  | _ => next ih => simpa using ih

theorem flag_eq (h : PendingWrites p i s u) (hi : ¬ writesFlag p i) : u.F = s.F := by
  induction h with
  | none => rfl
  | flag b _ hp => exact absurd hp hi
  | _ => next ih => simpa using ih

theorem reg_eq (h : PendingWrites p i s u) {r : Reg} (hr : ¬ writesReg p i r) : u.reg r = s.reg r := by
  induction h with
  | none => rfl
  | reg q v _ hq ih => rw [reg_setReg_ne _ _ fun e : r = q => hr (e ▸ hq), ih]
  | regs bs _ hbs ih =>
    have hlen : bs.length ≤ r.toNat := Nat.not_lt.1 fun hlt => hr (hbs r hlt)
    rw [reg_loadRegs, List.getD_eq_default _ _ hlen, ih]
  | flag b _ hp ih =>
    rw [reg_writeFlag_ne, ih]
    by_contra hc
    push Not at hc
    exact hr (hc.1 ▸ writesReg_flag hp hc.2)
  | _ => assumption

end PendingWrites

end Writes

/-! ## The invariant -/

section Invariant

variable {p : Params} {i : Instr} {s u : State}

/-- No part of the invariant looks at the registers. -/
theorem Inv.withRegisters (h : Inv p u) (xs : Vector Byte 16) : Inv p { u with x := xs } := { h with }

theorem Inv.writeFlag (h : Inv p u) (b : Bool) : Inv p (writeFlag p b u) := by
  have hF : (Machine.writeFlag p b u).F.toNat ≤ 1 := flag_writeFlag_le p b u h.flagBit
  unfold Machine.writeFlag at hF ⊢
  cases hm : p.flagMode with
  | aliasedR15 => exact h.withRegisters _
  | separate => simp only [hm] at hF; exact { h with flagBit := hF }

/-- A pushed return address keeps the entries in use even and at most `MEM_SIZE` (R34, R106). -/
theorem Inv.push (h : Inv p u) (hsp : u.SP < p.stackDepth) {v : Nat} (heven : v % 2 = 0) (hmem : v ≤ p.memSize) (hv : v < 2 ^ 17) :
    Inv p { u with S := u.S.set u.SP (BitVec.ofNat 17 v), SP := u.SP + 1 } :=
  { h with
    stackLength := by simpa using h.stackLength
    spBound := hsp
    stackEntries := fun k hk => by
      have hlen : u.SP < u.S.length := h.stackLength ▸ hsp
      by_cases hku : k = u.SP
      · subst hku
        have : (BitVec.ofNat 17 v).toNat = v := by simpa using Nat.mod_eq_of_lt hv
        simpa [State.stackAt, List.getD_eq_getElem?_getD, hlen, this, -BitVec.toNat_ofNat] using And.intro heven hmem
      · have : k < u.SP := by simp only at hk; omega
        simpa [State.stackAt, List.getD_eq_getElem?_getD, Ne.symm hku] using h.stackEntries k this }

/-- Every allowed write of a running state keeps the invariant. -/
theorem PendingWrites.inv (h : PendingWrites p i s u) (hrun : s.status = .running) (hs : Inv p s) : Inv p u := by
  induction h with
  | none => exact hs
  | reg r v _ _ ih => exact ih.withRegisters _
  | regs bs _ _ ih => exact ih.withRegisters _
  | flag b _ _ ih => exact ih.writeFlag b
  | index v _ _ ih => exact { ih with }
  | framebuffer f _ _ ih => exact { ih with fbRows := grid_length p f, fbColumns := grid_columns p f }
  | memory hw hm _ ih =>
    exact { ih with
      faultHere := fun f hf => by simp [hw.status_eq, hrun] at hf
      memoryWf := writeBytes_wf ih.memoryWf hm }
  | push nnn hw _ hsp ih =>
    have hpc := hs.pcEven
    have hmem := hs.pcInMemory
    have hlt := s.pc.isLt
    exact ih.push hsp (by omega) hmem (by omega)
  | pop _ _ ih =>
    exact { ih with
      spBound := (Nat.sub_le _ _).trans ih.spBound
      stackEntries := fun k hk => ih.stackEntries k (lt_of_lt_of_le hk (Nat.sub_le _ _)) }
  | delayTimer v x _ _ ih => exact { ih with }
  | soundTimer v x _ _ ih => exact { ih with }
  | draw x nn _ _ ih => exact { ih with }

/-- A legal next pc, with a status that is Running or a wait that can complete, keeps the invariant (R32, R117). -/
theorem Inv.moveTo (h : Inv p u) (hsize : p.memSize ≤ 65536) {npc : Nat} {st : Status} (heven : npc % 2 = 0)
    (hmem : npc + 2 ≤ p.memSize) (hst : st = .running ∨ ∃ x, st = .blocked x ∧ npc + 4 ≤ p.memSize) :
    Inv p { u with pc := BitVec.ofNat 16 npc, status := st } := by
  have hpc : (BitVec.ofNat 16 npc).toNat = npc := by
    rw [BitVec.toNat_ofNat]; exact Nat.mod_eq_of_lt (by omega)
  refine { h with
    pcEven := by rw [hpc]; exact heven
    pcInMemory := by rw [hpc]; exact hmem
    waitFits := fun x hx => ?_
    faultHere := fun f hf => ?_ }
  · obtain rfl | ⟨y, -, hfit⟩ := hst
    · cases hx
    · rw [hpc]; exact hfit
  · obtain rfl | ⟨y, rfl, -⟩ := hst <;> cases hf

/-- Fault entry with the fetched word keeps the invariant (R44, R132). -/
theorem Inv.halt (h : Inv p s) {w : Word} (hw : fetch p s = .ok w) (r : Raise) : Inv p (halt w s r) :=
  { h with
    waitFits := fun x hx => by cases hx
    faultHere := fun f hf => by cases hf; exact ⟨rfl, hw⟩ }

/-- A completion's status is Running, or a wait whose pc check is done (R117). -/
theorem Completes.status_cases {e : Effect} (h : Completes p i s e) :
    e.status = .running ∨ ∃ x, e.status = .blocked x ∧ e.npc + 4 ≤ p.memSize := by
  cases h with
  | runs => exact .inl rfl
  | waits x hfit => exact .inr ⟨x, rfl, hfit⟩

/-- Executing the fetched instruction keeps the invariant. -/
theorem execWith_inv {rnd : Byte} {t : State} (hsize : p.memSize ≤ 65536) (hs : Inv p s) (hrun : s.status = .running)
    (hf : fetch p s = .ok (encode i)) (h : execWith p rnd i s = .next t) : Inv p t := by
  obtain ⟨r, rfl⟩ | ⟨e, -, he, heven, hmem, rfl⟩ := execWith_cases h
  · exact hs.halt hf r
  · exact (he.pendingWrites.inv hrun hs).moveTo hsize heven hmem he.status_cases

theorem stepWith_inv {rnd : Byte} {t : State} (hsize : p.memSize ≤ 65536) (hs : Inv p s) (h : stepWith p rnd s = .next t) :
    Inv p t := by
  obtain ⟨-, rfl⟩ | ⟨hrun, w, hw, hx⟩ := stepVia_cases h
  · exact hs
  · exact execWith_inv hsize hs hrun (by rw [encode_decode, hw]) hx

/-- With the pc's word in memory, a step answers when the runs it may make answer (R46). -/
theorem stepVia_next {run : Instr → State → Host.Outcome State Fault Refusal} (hmem : s.pc.toNat + 2 ≤ p.memSize)
    (hrun : ∀ i, ∃ t, run i s = .next t) : ∃ t, stepVia p run s = .next t := by
  unfold stepVia
  cases s.status with
  | halted f => exact ⟨s, rfl⟩
  | blocked x => exact ⟨s, rfl⟩
  | running => simp only [fetch_ok hmem]; exact hrun _

/-- A running machine whose word lies in memory runs the instruction its two bytes decode to (R46, R53). -/
theorem stepVia_running {run : Instr → State → Host.Outcome State Fault Refusal} (hrun : s.status = .running)
    (hmem : s.pc.toNat + 2 ≤ p.memSize) :
    stepVia p run s = run (decode p (Memory.get p s.M s.pc.toNat ++ Memory.get p s.M (s.pc.toNat + 1))) s := by
  simp only [stepVia, hrun, fetch_ok hmem]

/-- The fixed step is the general one at the free value (log entry 1). -/
theorem step_eq_stepWith (s : State) : step s = stepWith params (Config.rnd s.draws) s := by
  unfold step stepWith stepVia
  simp only [exec_eq_execWith]

/-- A legal layout (R150), as its conditions. -/
theorem layoutOk_iff : layoutOk p = true ↔ 4096 ≤ p.memSize ∧ p.memSize ≤ 65536 ∧ p.loadBase % 2 = 0
    ∧ p.loadBase + 2 ≤ p.memSize ∧ p.fontBase + 80 ≤ p.loadBase ∧ p.fontBase + 80 ≤ p.memSize := by
  simp [layoutOk, and_assoc]

theorem memSize_le_of_paramsOk (h : paramsOk p = true) : p.memSize ≤ 65536 := by
  simp only [paramsOk, Bool.and_eq_true, layoutOk_iff] at h
  obtain ⟨⟨⟨⟨-, hsize, -⟩, -⟩, -⟩, -⟩ := h
  exact hsize

/-- A construction that reports no error has a legal layout and an image that fits (R150). -/
theorem layoutOk_of_configError_none {image : List Byte} (h : configError p image = none) :
    layoutOk p = true ∧ p.loadBase + image.length ≤ p.memSize := by
  unfold configError at h
  split_ifs at h with h1 h2 h3
  exact ⟨by simpa using h3, Nat.not_lt.1 h2⟩

/-- The constructed machine meets the invariant (R147, R149). -/
theorem construct_inv {image : List Byte} {c : State} (h : construct p image = .ok c) (n : Nat) :
    Inv p { c with draws := n } := by
  unfold construct at h
  split at h
  · cases h
  · next hnone =>
    cases h
    obtain ⟨hlayout, hfits⟩ := layoutOk_of_configError_none hnone
    obtain ⟨-, hsize, heven, hmem, -, -⟩ := layoutOk_iff.1 hlayout
    have hpc : (BitVec.ofNat 16 p.loadBase).toNat = p.loadBase := by
      rw [BitVec.toNat_ofNat]; exact Nat.mod_eq_of_lt (by omega)
    exact
      { pcEven := by simpa only [State.initial, hpc] using heven
        pcInMemory := by simpa only [State.initial, hpc] using hmem
        waitFits := fun x hx => by cases hx
        faultHere := fun f hf => by cases hf
        stackLength := List.length_replicate
        spBound := Nat.zero_le _
        stackEntries := fun k hk => absurd hk (Nat.not_lt_zero k)
        fbRows := List.length_replicate
        fbColumns := fun row hrow => by
          rw [List.eq_of_mem_replicate hrow, List.length_replicate]
        flagBit := by simp [State.initial]
        memoryWf := loadImage_wf p.loadBase image (wf_nil p) hfits }

/-- A key press keeps the invariant: the pc check of a waiting `input` was done when it executed (R117, R140). -/
theorem keyPress_inv (k : Nat) (hsize : p.memSize ≤ 65536) (hs : Inv p s) : Inv p (keyPress k s) := by
  by_cases hb : ∃ x, s.status = .blocked x
  · obtain ⟨x, hx⟩ := hb
    have hfit := hs.waitFits x hx
    have heven := hs.pcEven
    have hpc : s.pc + 2 = BitVec.ofNat 16 (s.pc.toNat + 2) := by simp [BitVec.ofNat_add]
    rw [keyPress_of_blocked k hx, hpc]
    have hu : Inv p ({ s with KEYS := setKey s.KEYS k true }.setReg x (BitVec.ofNat 8 k)) := { hs with }
    exact hu.moveTo hsize (by omega) (by omega) (.inl rfl)
  · rw [keyPress_of_not_blocked k fun x hx => hb ⟨x, hx⟩]
    exact { hs with }

end Invariant

/-! ## The separate flag -/

section SeparateFlag

variable {p : Params} {i : Instr} {s : State}

/-- The effect with another value in the separate flag. -/
def Effect.withF (v : Byte) (e : Effect) : Effect := { e with pending := { e.pending with F := v } }

@[simp] theorem reg_withF (s : State) (v : Byte) (r : Reg) : { s with F := v }.reg r = s.reg r := rfl

@[simp] theorem firstRegs_withF (s : State) (v : Byte) (n : Nat) : { s with F := v }.firstRegs n = s.firstRegs n := rfl

/-- Under `SEPARATE` a flag write forgets the flag before it (R28). -/
theorem writeFlag_forgets (hm : p.flagMode = .separate) (b : Bool) (u : State) (v : Byte) :
    writeFlag p b { u with F := v } = writeFlag p b u := by
  rw [writeFlag_separate hm, writeFlag_separate hm]

/-- A flag writer that raises nothing ends with its flag write (R28, R29). -/
theorem effect_writesFlag {rnd : Byte} {e : Effect} (hw : writesFlag p i) (h : effect p rnd i s = .ok e) :
    ∃ b u, e.pending = writeFlag p b u := by
  cases i with
  | addReg | sub | shr | subn | shl => cases h; exact ⟨_, _, rfl⟩
  | or | and | xor =>
    have hr : p.logicResetsFlag = true := hw
    cases h
    exact ⟨false, _, if_pos hr⟩
  | draw x y n =>
    obtain rfl := effDraw_ok h
    exact ⟨_, _, rfl⟩
  | _ => exact hw.elim

/-- A sequential instruction that ends with a flag write forgets the flag before it. -/
theorem sequential_writeFlag_forgets (hm : p.flagMode = .separate) (b : Bool) (u : State) (v : Byte) :
    (.ok (sequential (writeFlag p b { u with F := v })) : Except Raise Effect) = .ok (sequential (writeFlag p b u)) := by
  rw [writeFlag_forgets hm]

/-- A sequential instruction that ends with the logic flag write forgets the flag or carries it along, by `LOGIC_RESETS_FLAG` (R18). -/
theorem sequential_logicFlag_withF (hm : p.flagMode = .separate) (u : State) (v : Byte) :
    (.ok (sequential (logicFlag p { u with F := v })) : Except Raise Effect) = .ok (sequential (logicFlag p u))
      ∨ (.ok (sequential (logicFlag p { u with F := v })) : Except Raise Effect)
        = (Except.ok (sequential (logicFlag p u))).map (Effect.withF v) := by
  unfold logicFlag
  by_cases hr : p.logicResetsFlag = true
  · left; simp only [if_pos hr, writeFlag_forgets hm]
  · right; simp only [if_neg hr]; rfl

/-- Under `SEPARATE` no instruction reads the flag: an instruction that writes it forgets its value, and any other carries it along
(R27, R28). -/
theorem effect_withF (hm : p.flagMode = .separate) (rnd : Byte) (i : Instr) (s : State) (v : Byte) :
    effect p rnd i { s with F := v } = effect p rnd i s
      ∨ effect p rnd i { s with F := v } = (effect p rnd i s).map (Effect.withF v) := by
  cases i with
  | addReg x | sub x | shr x | subn x | shl x => exact .inl (sequential_writeFlag_forgets hm _ (s.setReg x _) v)
  | or x | and x | xor x => exact sequential_logicFlag_withF hm (s.setReg x _) v
  | draw x y n =>
    left
    simp only [effect, effDraw]
    cases readBytes p s.M s.I.toNat n.toNat with
    | error r => rfl
    | ok rows => exact sequential_writeFlag_forgets hm _ { s with FB := xorSprite p s.FB _ _ rows } v
  | ret => right; simp only [effect, effRet, pop]; split_ifs <;> rfl
  | call => right; simp only [effect, effCall, push]; split_ifs <;> rfl
  | skp x => right; simp only [effect, effSkp, reg_withF]; cases keyIndex p (s.reg x) <;> rfl
  | sknp x => right; simp only [effect, effSknp, reg_withF]; cases keyIndex p (s.reg x) <;> rfl
  | input => right; simp only [effect, effInput]; split_ifs <;> rfl
  | bcd x => right; simp only [effect, effBcd, reg_withF]; cases writeBytes p s.M s.I.toNat (bcdDigits (s.reg x)) <;> rfl
  | stor x => right; simp only [effect, effStor, firstRegs_withF]; cases writeBytes p s.M s.I.toNat (s.firstRegs (x.toNat + 1)) <;> rfl
  | load x => right; simp only [effect, effLoad]; cases readBytes p s.M s.I.toNat (x.toNat + 1) <;> rfl
  | _ => exact .inr rfl

/-- From two states that differ in the separate flag alone, an instruction answers two such states (R27). -/
theorem execWith_withF (hm : p.flagMode = .separate) {rnd : Byte} {t : State} (h : execWith p rnd i s = .next t) (v : Byte) :
    ∃ u, execWith p rnd i { s with F := v } = .next { t with F := u } := by
  unfold execWith at h ⊢
  obtain he | he := effect_withF hm rnd i s v
  all_goals
    rw [he]
    cases hx : effect p rnd i s with
    | error r => rw [hx] at h; cases h; exact ⟨v, rfl⟩
    | ok e =>
      cases hp : pcOk p e.npc
      all_goals
        simp only [hx, commit, Except.map, Effect.withF, hp, if_true, Bool.false_eq_true, if_false] at h ⊢
        cases h; exact ⟨_, rfl⟩

/-- A flag writer that does not fault leaves 0 or 1 in the separate flag (R28, R29). -/
theorem execWith_flag_bit (hm : p.flagMode = .separate) {rnd : Byte} {t : State} (hw : writesFlag p i)
    (h : execWith p rnd i s = .next t) (hrun : ∀ f, t.status ≠ .halted f) : t.F = 0 ∨ t.F = 1 := by
  obtain ⟨r, rfl⟩ | ⟨e, he, -, -, -, rfl⟩ := execWith_cases h
  · exact absurd (halt_status _ _ _) (hrun _)
  · obtain ⟨b, u, hu⟩ := effect_writesFlag hw he
    simp only [hu, writeFlag_separate hm]
    cases b
    · exact .inl rfl
    · exact .inr rfl

/-- The rows a `draw` reads are the bytes of memory from `I` (R112), so its collision output is that some set pixel of the sprite falls
on a set pixel of the framebuffer (R29). -/
theorem collision_eq_true_iff (s : State) (x y : Reg) (n : Nibble) :
    collision params s.FB ((s.reg x).toNat % params.fbW) ((s.reg y).toNat % params.fbH) (bytesFrom params s.M s.I.toNat n.toNat) = true
      ↔ ∃ py px, SpritePixel s x y n py px ∧ pixel s.FB py px = true := by
  rw [collision_iff, bytesFrom_length]
  constructor
  · rintro ⟨r, c, hr, hc, hbit, hpix⟩
    rw [bytesFrom_getD _ _ hr] at hbit
    exact ⟨_, _, ⟨r, c, hr, hc, hbit, rfl, rfl⟩, hpix⟩
  · rintro ⟨_, _, ⟨r, c, hr, hc, hbit, rfl, rfl⟩, hpix⟩
    refine ⟨r, c, hr, hc, ?_, hpix⟩
    rw [bytesFrom_getD _ _ hr]
    exact hbit

/-- A `draw` that completes under `SEPARATE` leaves the collision in the flag, and every register (R112). -/
theorem execWith_draw_separate {rnd : Byte} {x y : Reg} {n : Nibble} {t : State}
    (h : execWith { params with flagMode := .separate } rnd (.draw x y n) s = .next t) (hrun : t.status = .running) :
    t.x = s.x ∧ t.F = if collision params s.FB ((s.reg x).toNat % params.fbW) ((s.reg y).toNat % params.fbH)
      (bytesFrom params s.M s.I.toNat n.toNat) then 1 else 0 := by
  obtain ⟨r, rfl⟩ | ⟨e, he, -, -, -, rfl⟩ := execWith_cases h
  · cases hrun
  · obtain rfl := effDraw_ok he
    exact ⟨rfl, rfl⟩

end SeparateFlag

/-! ## The reads -/

theorem nextInstr_illegal {p : Params} {s : State} {w : Word} (hf : fetch p s = .ok w) (h : illegalWord p w = true) :
    nextInstr p s = .undecodable w := by
  simp only [nextInstr, hf, decode_of_illegal h]

theorem nextInstr_legal {p : Params} {s : State} {w : Word} (hf : fetch p s = .ok w) (h : illegalWord p w = false) :
    nextInstr p s = .instr (decode p w) := by
  simp only [nextInstr, hf]
  split
  · next hd => exact absurd hd (decode_of_legal h _)
  · rfl

theorem readSound_eq (s : State) : readSound s = decide (s.ST.toNat ≠ 0) := by
  rw [readSound, bne, Bool.eq_iff_iff]
  simp [← BitVec.toNat_inj]

theorem snapshot_stack (p : Params) (s : State) (h : s.SP ≤ s.S.length) :
    (readSnapshot p s).S.length = s.SP ∧ ∀ k, k < s.SP → (readSnapshot p s).S.getD k 0 = s.stackAt k := by
  refine ⟨by simp [readSnapshot, h], fun k hk => ?_⟩
  simp [readSnapshot, State.stackAt, List.getD_eq_getElem?_getD, hk]

/-- A key press leaves the framebuffer (R143). -/
@[simp] theorem keyPress_FB (k : Nat) (s : State) : (keyPress k s).FB = s.FB := by
  by_cases hb : ∃ x, s.status = .blocked x
  · obtain ⟨x, hx⟩ := hb
    rw [keyPress_of_blocked k hx]; rfl
  · rw [keyPress_of_not_blocked k fun x hx => hb ⟨x, hx⟩]

/-- Only `rand` takes the step's `rnd` (R45). -/
theorem effect_rnd (p : Params) {i : Instr} (hi : ∀ x nn, i ≠ .rand x nn) (r r' : Byte) (s : State) :
    effect p r i s = effect p r' i s := by
  cases i with
  | rand x nn => exact absurd rfl (hi x nn)
  | _ => rfl

/-! ## The statements of 10_state.md -/

/-- Settles O10, from the invariant of the step at any parameters. -/
theorem stepKeepsTheInvariant : Obligations.StepKeepsTheInvariant := by
  intro s t hs h
  rw [step_eq_stepWith] at h
  exact stepWith_inv (by decide) hs h

/-- Settles O11, transaction by transaction. -/
theorem transactionsKeepTheInvariant : Obligations.TransactionsKeepTheInvariant := by
  intro p x s t hp hs h
  have hsize := memSize_le_of_paramsOk hp
  cases x with
  | construct image =>
    simp only [act] at h
    split at h
    · cases h
    · next c hc => cases h; exact construct_inv hc _
  | step rnd => exact stepWith_inv hsize hs h
  | tick => cases h; exact { hs with }
  | keyPress k =>
    simp only [act] at h
    split at h
    · cases h; exact keyPress_inv k hsize hs
    · cases h
  | keyRelease k =>
    simp only [act] at h
    split at h
    · cases h; exact { hs with }
    · cases h
  | readSnapshot | readFramebuffer | readSound => cases h; exact hs

/-- Settles O9: the invariant keeps the pc's word in memory, and every instruction answers. -/
theorem stepAlwaysAnswers : Obligations.StepAlwaysAnswers :=
  ⟨fun s hs => stepVia_next hs.pcInMemory fun i => exec_next i s,
    fun p rnd s hs => stepVia_next hs.pcInMemory fun i => commit_next p (encode i) s (effect p rnd i s)⟩

/-- Settles O51, by the frame of the registers. -/
theorem registersChangeOnlyWhereNamed : Obligations.RegistersChangeOnlyWhereNamed := by
  have general : ∀ p rnd i s t r, execWith p rnd i s = .next t → ¬ writesReg p i r → t.reg r = s.reg r :=
    fun p rnd i s t r h hr => execWith_keeps (f := fun u => u.reg r) h (fun _ _ _ => rfl) fun _ hw => hw.reg_eq hr
  exact ⟨general, fun i s t r h hr => general _ _ i s t r (exec_eq_execWith i s ▸ h) hr⟩

/-- Settles O53, by the frame of the framebuffer and transaction by transaction. -/
theorem framebufferChangesOnlyByDrawAndClear : Obligations.FramebufferChangesOnlyByDrawAndClear := by
  constructor
  · intro p rnd i s t h hdraw hcls
    have hi : ¬ WritesFramebuffer i := by
      rintro (rfl | ⟨x, y, n, rfl⟩)
      · exact hcls rfl
      · exact hdraw x y n rfl
    exact execWith_keeps (f := State.FB) h (fun _ _ _ => rfl) fun _ hw => hw.framebuffer_eq hi
  · intro p a s t h hstep hconstruct
    cases a with
    | construct image => exact absurd rfl (hconstruct image)
    | step rnd => exact absurd rfl (hstep rnd)
    | tick => cases h; rfl
    | keyPress k =>
      simp only [act] at h
      split at h
      · cases h; exact keyPress_FB k s
      · cases h
    | keyRelease k =>
      simp only [act] at h
      split at h
      · cases h; rfl
      · cases h
    | readSnapshot | readFramebuffer | readSound => cases h; rfl

/-- Settles O54, by the frame of `I`. -/
theorem addressRegisterWriters : Obligations.AddressRegisterWriters := by
  intro p rnd i s t h hldi haddi hldf htransfer
  have hi : ¬ WritesIndex p i := by
    rintro (⟨nnn, rfl⟩ | ⟨x, rfl⟩ | ⟨x, rfl⟩ | ⟨hp, hx⟩)
    · exact hldi nnn rfl
    · exact haddi x rfl
    · exact hldf x rfl
    · obtain ⟨hstor, hload⟩ := htransfer.resolve_right (by simp [hp])
      obtain ⟨x, rfl⟩ | ⟨x, rfl⟩ := hx
      · exact hstor x rfl
      · exact hload x rfl
  exact execWith_keeps (f := State.I) h (fun _ _ _ => rfl) fun _ hw => hw.index_eq hi

/-- Settles O55, by the frames of the entries and of the pointer. -/
theorem stackChangesOnlyByCallAndReturn : Obligations.StackChangesOnlyByCallAndReturn := fun _ _ _ _ _ h hcall =>
  ⟨execWith_keeps (f := State.S) h (fun _ _ _ => rfl) fun _ hw => hw.stack_eq hcall,
    fun hret => execWith_keeps (f := State.SP) h (fun _ _ _ => rfl) fun _ hw => hw.stackPointer_eq hcall hret⟩

/-- Settles O56, by the frames of the timers and the keypad. -/
theorem timersAndKeypadInAStep : Obligations.TimersAndKeypadInAStep := fun _ _ _ _ _ h =>
  ⟨fun hi => execWith_keeps (f := State.DT) h (fun _ _ _ => rfl) fun _ hw => hw.delayTimer_eq hi,
    fun hi => execWith_keeps (f := State.ST) h (fun _ _ _ => rfl) fun _ hw => hw.soundTimer_eq hi,
    execWith_keeps (f := State.KEYS) h (fun _ _ _ => rfl) fun _ hw => hw.keys_eq⟩

/-- Settles O57: the flag write and read by mode, the collision of `draw`, and the three facts about `F` under `SEPARATE`. -/
theorem theSeparateFlagIsWrittenAndNeverRead : Obligations.TheSeparateFlagIsWrittenAndNeverRead := by
  refine ⟨fun p b s => ⟨fun hm => ⟨writeFlag_separate hm b s, readFlag_separate hm s⟩,
    fun hm => ⟨writeFlag_aliased hm b s, readFlag_aliased hm s⟩⟩, ?_, ?_⟩
  · intro rnd x y n s t h hrun
    obtain ⟨hx, hF⟩ := execWith_draw_separate h hrun
    rw [← collision_eq_true_iff]
    exact ⟨hx, fun hc => by rw [hF, if_pos hc], fun hc => by rw [hF, if_neg hc]⟩
  · intro p rnd i s t hm h
    exact ⟨fun hi => execWith_keeps (f := State.F) h (fun _ _ _ => rfl) fun _ hw => hw.flag_eq hi,
      fun hi hrun => execWith_flag_bit hm hi h hrun, execWith_withF hm h⟩

/-- Settles O58, from the effect's independence of `rnd` and the frame of the model's counter (log entry 2). -/
theorem onlyRandUsesRnd : Obligations.OnlyRandUsesRnd := fun p i s hi =>
  ⟨fun r r' => congrArg (commit p (encode i) s) (effect_rnd p hi r r' s),
    fun _ _ h => execWith_keeps (f := State.draws) h (fun _ _ _ => rfl) fun _ hw => hw.draws_eq hi⟩

/-- Settles O6: the fetch answers the two bytes at the pc. -/
theorem stepRunsTheDecodedInstruction : Obligations.StepRunsTheDecodedInstruction := by
  intro s i hrun hmem hd _
  rw [← hd]
  exact stepVia_running hrun hmem

/-- Settles O7: the two steps run the same instruction the same way. -/
theorem stepIsTheSpecStepWithAFreeDraw : Obligations.StepIsTheSpecStepWithAFreeDraw := step_eq_stepWith

/-- Settles O50: the reads and replies by their definitions, the stack and the next instruction by the lemmas above. -/
theorem readsShowTheStateAndChangeNothing : Obligations.ReadsShowTheStateAndChangeNothing := by
  intro p s
  refine ⟨rfl, rfl, rfl, readSound_eq s, rfl, fun _ => rfl, fun _ => rfl, rfl, fun _ => ⟨rfl, rfl⟩, rfl, rfl,
    congrArg Reply.sound (readSound_eq s), rfl, fun hm => ?_, fun hm => ?_, rfl, rfl, rfl, rfl, rfl, rfl, snapshot_stack p s,
    fun w hf => ⟨nextInstr_illegal hf, nextInstr_legal hf⟩⟩
  · simp only [readSnapshot, hm]
  · simp only [readSnapshot, hm]

end Sys2Proof.Machine
end

section
/-! PROOFS. The statements of 20_memory.md: the reads, the bytes a store leaves and those it does not touch, and the fetch of stored bytes. -/

namespace Sys2Proof.Machine

/-! ## Reads (R51) -/

/-- Two bytes, high byte first, as a number. -/
theorem bytes_append_eq_ofNat (hi lo : Byte) : hi ++ lo = BitVec.ofNat 16 (hi.toNat * 256 + lo.toNat) := by
  apply BitVec.eq_of_toNat_eq
  have hhi := hi.isLt
  have hlo := lo.isLt
  rw [BitVec.toNat_append, ← Nat.shiftLeft_add_eq_or_of_lt hlo, Nat.shiftLeft_eq, BitVec.toNat_ofNat]
  omega

section Reads

variable {p : Params} {a : Nat}

theorem memRead1_inside (m : Memory) (h : a < p.memSize) : memRead1 p m a = .ok (Memory.get p m a) :=
  if_neg (Nat.not_le.2 h)

theorem memRead1_outside (m : Memory) (h : p.memSize ≤ a) : memRead1 p m a = .error ⟨.memoryOutOfBounds, some a⟩ :=
  if_pos h

theorem memRead2_inside (m : Memory) (h : a + 1 < p.memSize) :
    memRead2 p m a = .ok (Memory.get p m a ++ Memory.get p m (a + 1)) := by
  simp only [memRead2, memRead1_inside m (Nat.lt_of_succ_lt h), memRead1_inside m h]

theorem memRead2_outside (m : Memory) (h : p.memSize ≤ a) : memRead2 p m a = .error ⟨.memoryOutOfBounds, some a⟩ := by
  simp only [memRead2, memRead1_outside m h]

/-- At the last byte of memory the second byte is the one outside. -/
theorem memRead2_last (m : Memory) (h : a + 1 = p.memSize) : memRead2 p m a = .error ⟨.memoryOutOfBounds, some (a + 1)⟩ := by
  simp only [memRead2, memRead1_inside m ((Nat.lt_succ_self a).trans_eq h), memRead1_outside m h.ge]

end Reads

/-! ## Stores (R52, R56) -/

section Stores

variable {p : Params} {i : Instr} {s t u : State}

/-- A store that answers lies in memory (R52). -/
theorem writeBytes_inside {m m' : Memory} {a : Nat} {bs : List Byte} (h : writeBytes p m a bs = .ok m') :
    bs = [] ∨ a + bs.length ≤ p.memSize := by
  by_contra hout
  obtain ⟨hne, hlen⟩ := not_or.1 hout
  rw [writeBytes_error p m a bs (List.length_pos_of_ne_nil hne) (Nat.not_le.1 hlen)] at h
  cases h

/-- A store that answers leaves its bytes at their addresses and every other byte as before. -/
theorem get_writeBytes {m m' : Memory} {a : Nat} {bs : List Byte} (h : writeBytes p m a bs = .ok m') (b : Nat) :
    Memory.get p m' b = if a ≤ b ∧ b < a + bs.length then bs.getD (b - a) 0 else Memory.get p m b := by
  obtain ⟨m'', hw, hget, -⟩ := writeBytes_ok p m a bs (writeBytes_inside h)
  obtain rfl := Except.ok.inj (hw.symm.trans h)
  exact hget b

/-- The allowed writes leave every byte the instruction does not store to. -/
theorem PendingWrites.get_eq (h : PendingWrites p i s u) {a : Nat} (ha : ¬ storesAt i s a) :
    Memory.get p u.M a = Memory.get p s.M a := by
  induction h with
  | none => rfl
  | memory _ hw hstores ih => rw [get_writeBytes hw, if_neg fun hb => ha (hstores a hb), ih]
  | _ => next ih => simpa using ih

/-- An instruction that ends Running raised nothing, and its pending writes are committed (R46). -/
theorem execWith_running {rnd : Byte} (h : execWith p rnd i s = .next t) (hrun : t.status = .running) :
    ∃ e, effect p rnd i s = .ok e ∧ t = { e.pending with pc := BitVec.ofNat 16 e.npc, status := e.status } := by
  obtain ⟨r, rfl⟩ | ⟨e, he, -, -, -, rfl⟩ := execWith_cases h
  · cases hrun
  · exact ⟨e, he, rfl⟩

/-- A `stor` that completes leaves the memory its store answers (R121). -/
theorem exec_stor_stores {x : Reg} (h : exec (.stor x) s = .next t) (hrun : t.status = .running) :
    writeBytes params s.M s.I.toNat (s.firstRegs (x.toNat + 1)) = .ok t.M := by
  rw [exec_eq_execWith] at h
  obtain ⟨e, he, rfl⟩ := execWith_running h hrun
  simp only [effect, effStor] at he
  split at he
  · cases he
  · next m hm => cases he; exact hm

/-- A `bcd` that completes leaves the memory its store answers (R120). -/
theorem exec_bcd_stores {x : Reg} (h : exec (.bcd x) s = .next t) (hrun : t.status = .running) :
    writeBytes params s.M s.I.toNat (bcdDigits (s.reg x)) = .ok t.M := by
  rw [exec_eq_execWith] at h
  obtain ⟨e, he, rfl⟩ := execWith_running h hrun
  simp only [effect, effBcd] at he
  split at he
  · cases he
  · next m hm => cases he; exact hm

end Stores

/-! ## The bytes stored and their fetch (R53, R62) -/

@[simp] theorem firstRegs_length (s : State) (x : Reg) : (s.firstRegs (x.toNat + 1)).length = x.toNat + 1 := by
  have := x.isLt
  simp only [State.firstRegs, List.length_take, Vector.length_toList]
  omega

theorem firstRegs_getD (s : State) {n k : Nat} (hk : k < n) (h16 : k < 16) :
    (s.firstRegs n).getD k 0 = s.reg (BitVec.ofNat 4 k) := by
  simp [State.firstRegs, State.reg, List.getD_eq_getElem?_getD, hk, h16, Nat.mod_eq_of_lt]

/-- A fetch at two stored bytes reads them, high byte first. -/
theorem fetch_writeBytes {p : Params} {m : Memory} {a b : Nat} {bs : List Byte} {u : State}
    (hw : writeBytes p m a bs = .ok u.M) (hpc : u.pc.toNat = b) (hlow : a ≤ b) (hhigh : b + 1 < a + bs.length) :
    fetch p u = .ok (bs.getD (b - a) 0 ++ bs.getD (b + 1 - a) 0) := by
  subst hpc
  have hmem : a + bs.length ≤ p.memSize := (writeBytes_inside hw).resolve_left (by rintro rfl; simp at hhigh; omega)
  rw [fetch_ok (by omega), get_writeBytes hw, get_writeBytes hw, if_pos (by omega), if_pos (by omega)]

/-- The first two digits of `bcd` as a word. -/
theorem bcdDigits_word (v : Byte) :
    (bcdDigits v).getD 0 0 ++ (bcdDigits v).getD 1 0 = BitVec.ofNat 16 (256 * (v.toNat / 100) + v.toNat / 10 % 10) := by
  have hv := v.isLt
  have hhundreds : v.toNat / 100 % 2 ^ 8 = v.toNat / 100 := by omega
  have htens : v.toNat / 10 % 10 % 2 ^ 8 = v.toNat / 10 % 10 := by omega
  simp only [bcdDigits, List.getD_cons_zero, List.getD_cons_succ]
  rw [bytes_append_eq_ofNat, BitVec.toNat_ofNat, BitVec.toNat_ofNat, hhundreds, htens, Nat.mul_comm]

/-! ## The statements of 20_memory.md -/

/-- Settles O46, from the reads inside memory, at its last byte and outside. -/
theorem memoryReadResult : Obligations.MemoryReadResult := fun _ m _ =>
  ⟨fun h => ⟨memRead1_outside m h, memRead2_outside m h⟩, memRead1_inside m, memRead2_last m,
    fun h => (memRead2_inside m h).trans (congrArg Except.ok (bytes_append_eq_ofNat _ _))⟩

/-- Settles O52, by the frame of memory. -/
theorem memoryChangesOnlyWhereStored : Obligations.MemoryChangesOnlyWhereStored := by
  intro i s t a h ha
  rw [exec_eq_execWith] at h
  exact execWith_keeps (f := fun u => u.byteAt a) h (fun _ _ _ => rfl) fun _ hw => hw.get_eq ha

/-- Settles O44: both instructions leave what their store answers, and a fetch reads the stored bytes back. -/
theorem storesAreSeenByTheNextFetch : Obligations.StoresAreSeenByTheNextFetch := by
  constructor
  · intro x s t a h hrun hlow hhigh
    have hw := exec_stor_stores h hrun
    have hx := x.isLt
    have hmem : s.I.toNat + (x.toNat + 1) ≤ 4096 := by
      simpa [params] using (writeBytes_inside hw).resolve_left (List.ne_nil_of_length_pos (by simp))
    have hpc : (BitVec.ofNat 16 a).toNat = a := by rw [BitVec.toNat_ofNat]; exact Nat.mod_eq_of_lt (by omega)
    rw [fetch_writeBytes (u := { t with pc := BitVec.ofNat 16 a }) hw hpc hlow (by rw [firstRegs_length]; omega),
      firstRegs_getD s (by omega) (by omega), firstRegs_getD s (by omega) (by omega)]
  · intro x s t h hrun
    have hw := exec_bcd_stores h hrun
    rw [fetch_writeBytes (u := { t with pc := s.I }) hw rfl le_rfl (by simp [bcdDigits]), Nat.sub_self, Nat.add_sub_cancel_left,
      bcdDigits_word]

end Sys2Proof.Machine
end

section
/-! PROOFS. The statements of 30_encoding.md: at most one row of the opcode map fits a word, every instruction has a row, the two laws of
R72, and what `CATALOG_EXT` changes. -/

namespace Sys2Proof

/-! ## At most one row fits a word (R71) -/

/-- Two characters of a pattern that no nibble agrees with both. -/
def Digit.clashes : Digit → Digit → Bool
  | .hex a, .hex b => a != b
  | .hex _, .any => false
  | .any, .hex _ => false
  | .any, .any => false

/-- Two rows with a fixed digit in one place that differs. -/
def Row.clashes (r r' : Row) : Bool :=
  r.d3.clashes r'.d3 || r.d2.clashes r'.d2 || r.d1.clashes r'.d1 || r.d0.clashes r'.d0

theorem Digit.clashes_eq_false_of_fits {d d' : Digit} {n : Nibble} (h : digitFits d n = true) (h' : digitFits d' n = true) :
    d.clashes d' = false := by
  cases d <;> cases d' <;> simp_all [Digit.clashes]

theorem Row.clashes_eq_false_of_fits {r r' : Row} {w : Word} (h : rowFits r w = true) (h' : rowFits r' w = true) :
    r.clashes r' = false := by
  obtain ⟨h3, h2, h1, h0⟩ := (rowFits_iff r w).1 h
  obtain ⟨h3', h2', h1', h0'⟩ := (rowFits_iff r' w).1 h'
  simp only [Row.clashes, Digit.clashes_eq_false_of_fits h3 h3', Digit.clashes_eq_false_of_fits h2 h2',
    Digit.clashes_eq_false_of_fits h1 h1', Digit.clashes_eq_false_of_fits h0 h0', Bool.or_self]

theorem opcodeMap_pairwise_clashes : opcodeMap.Pairwise fun r r' => r.clashes r' = true := by
  decide

/-- Settles O4: any two rows of the map clash in a fixed digit, and rows that one word fits do not. -/
theorem patternsArePairwiseDisjoint : Obligations.PatternsArePairwiseDisjoint :=
  opcodeMap_pairwise_clashes.imp fun hclash _ ⟨h, h'⟩ => by
    simp [Row.clashes_eq_false_of_fits h h'] at hclash

theorem rowFits_unique {r r' : Row} {w : Word} (hr : r ∈ opcodeMap) (hr' : r' ∈ opcodeMap) (hf : rowFits r w = true)
    (hf' : rowFits r' w = true) : r = r' := by
  have hsymm : Std.Symm fun r r' : Row => ∀ w, ¬ (rowFits r w = true ∧ rowFits r' w = true) := ⟨fun _ _ h w hw => h w hw.symm⟩
  by_contra hne
  exact patternsArePairwiseDisjoint.forall hr hr' hne w ⟨hf, hf'⟩

/-- The row that fits a word decides its decode, wherever it stands in the map (R71). -/
theorem decode_of_rowFits (p : Params) {r : Row} {w : Word} (hr : r ∈ opcodeMap) (hf : rowFits r w = true) :
    decode p w = if r.ext && !p.catalogExt then .invalid w else r.make w := by
  obtain ⟨-, hno⟩ | ⟨r', hr', hf', hd⟩ := decode_cases p w
  · exact absurd hf (hno r hr)
  · rw [hd, rowFits_unique hr' hr hf' hf]

/-! ## Every instruction has a row (R70) -/

/-- The row fits the instruction's word, makes the instruction from it, and has its catalog. -/
structure Row.IsRowOf (r : Row) (i : Instr) : Prop where
  fits : rowFits r (encode i) = true
  makes : r.make (encode i) = i
  ext_eq : r.ext = i.isExt

theorem rowA_isRowOf {op : Nibble} {ext : Bool} {mk : Addr → Instr} {nnn : Addr} (h : encode (mk nnn) = op ++ nnn)
    (hext : ext = (mk nnn).isExt) : (rowA op ext mk).IsRowOf (mk nnn) where
  fits := by simp [h, rowFits_iff, rowA]
  makes := by simp [h, rowA]
  ext_eq := hext

theorem rowXNN_isRowOf {op : Nibble} {ext : Bool} {mk : Reg → Byte → Instr} {x : Reg} {nn : Byte}
    (h : encode (mk x nn) = wordXNN op x nn) (hext : ext = (mk x nn).isExt) : (rowXNN op ext mk).IsRowOf (mk x nn) where
  fits := by simp [h, rowFits_iff, rowXNN]
  makes := by simp [h, rowXNN]
  ext_eq := hext

theorem rowXY_isRowOf {op fn : Nibble} {mk : Reg → Reg → Instr} {x y : Reg} (h : encode (mk x y) = wordXY op x y fn)
    (hext : false = (mk x y).isExt) : (rowXY op fn mk).IsRowOf (mk x y) where
  fits := by simp [h, rowFits_iff, rowXY]
  makes := by simp [h, rowXY]
  ext_eq := hext

theorem rowX_isRowOf {op hi lo : Nibble} {ext : Bool} {mk : Reg → Instr} {x : Reg}
    (h : encode (mk x) = wordXNN op x (hi ++ lo)) (hext : ext = (mk x).isExt) : (rowX op hi lo ext mk).IsRowOf (mk x) where
  fits := by
    have hy : fieldY (wordXNN op x (hi ++ lo)) = hi := (fieldY_wordXNN ..).trans BitVec.extractLsb'_append_eq_left
    have hn : fieldN (wordXNN op x (hi ++ lo)) = lo := (fieldN_wordXNN ..).trans BitVec.extractLsb'_append_eq_right
    simp [h, hy, hn, rowFits_iff, rowX]
  makes := by simp [h, rowX]
  ext_eq := hext

theorem exists_isRowOf {i : Instr} (hi : ∀ w, i ≠ .invalid w) : ∃ r ∈ opcodeMap, r.IsRowOf i := by
  cases i with
  | cls => exact ⟨opcodeMap[0], List.getElem_mem _, ⟨rfl, rfl, rfl⟩⟩
  | ret => exact ⟨opcodeMap[1], List.getElem_mem _, ⟨rfl, rfl, rfl⟩⟩
  | jmp nnn => exact ⟨opcodeMap[2], List.getElem_mem _, rowA_isRowOf rfl rfl⟩
  | call nnn => exact ⟨opcodeMap[3], List.getElem_mem _, rowA_isRowOf rfl rfl⟩
  | seImm x nn => exact ⟨opcodeMap[4], List.getElem_mem _, rowXNN_isRowOf rfl rfl⟩
  | sneImm x nn => exact ⟨opcodeMap[5], List.getElem_mem _, rowXNN_isRowOf rfl rfl⟩
  | seReg x y => exact ⟨opcodeMap[6], List.getElem_mem _, rowXY_isRowOf rfl rfl⟩
  | movImm x nn => exact ⟨opcodeMap[7], List.getElem_mem _, rowXNN_isRowOf rfl rfl⟩
  | addImm x nn => exact ⟨opcodeMap[8], List.getElem_mem _, rowXNN_isRowOf rfl rfl⟩
  | movReg x y => exact ⟨opcodeMap[9], List.getElem_mem _, rowXY_isRowOf rfl rfl⟩
  | or x y => exact ⟨opcodeMap[10], List.getElem_mem _, rowXY_isRowOf rfl rfl⟩
  | and x y => exact ⟨opcodeMap[11], List.getElem_mem _, rowXY_isRowOf rfl rfl⟩
  | xor x y => exact ⟨opcodeMap[12], List.getElem_mem _, rowXY_isRowOf rfl rfl⟩
  | addReg x y => exact ⟨opcodeMap[13], List.getElem_mem _, rowXY_isRowOf rfl rfl⟩
  | sub x y => exact ⟨opcodeMap[14], List.getElem_mem _, rowXY_isRowOf rfl rfl⟩
  | shr x y => exact ⟨opcodeMap[15], List.getElem_mem _, rowXY_isRowOf rfl rfl⟩
  | subn x y => exact ⟨opcodeMap[16], List.getElem_mem _, rowXY_isRowOf rfl rfl⟩
  | shl x y => exact ⟨opcodeMap[17], List.getElem_mem _, rowXY_isRowOf rfl rfl⟩
  | sneReg x y => exact ⟨opcodeMap[18], List.getElem_mem _, rowXY_isRowOf rfl rfl⟩
  | ldi nnn => exact ⟨opcodeMap[19], List.getElem_mem _, rowA_isRowOf rfl rfl⟩
  | jmpo nnn => exact ⟨opcodeMap[20], List.getElem_mem _, rowA_isRowOf rfl rfl⟩
  | rand x nn => exact ⟨opcodeMap[21], List.getElem_mem _, rowXNN_isRowOf rfl rfl⟩
  | draw x y n =>
    exact ⟨opcodeMap[22], List.getElem_mem _, by simp [encode, rowFits_iff, opcodeMap], by simp [encode, opcodeMap], rfl⟩
  | skp x => exact ⟨opcodeMap[23], List.getElem_mem _, rowX_isRowOf rfl rfl⟩
  | sknp x => exact ⟨opcodeMap[24], List.getElem_mem _, rowX_isRowOf rfl rfl⟩
  | ldd x => exact ⟨opcodeMap[25], List.getElem_mem _, rowX_isRowOf rfl rfl⟩
  | input x => exact ⟨opcodeMap[26], List.getElem_mem _, rowX_isRowOf rfl rfl⟩
  | delay x => exact ⟨opcodeMap[27], List.getElem_mem _, rowX_isRowOf rfl rfl⟩
  | sound x => exact ⟨opcodeMap[28], List.getElem_mem _, rowX_isRowOf rfl rfl⟩
  | addi x => exact ⟨opcodeMap[29], List.getElem_mem _, rowX_isRowOf rfl rfl⟩
  | ldf x => exact ⟨opcodeMap[30], List.getElem_mem _, rowX_isRowOf rfl rfl⟩
  | bcd x => exact ⟨opcodeMap[31], List.getElem_mem _, rowX_isRowOf rfl rfl⟩
  | stor x => exact ⟨opcodeMap[32], List.getElem_mem _, rowX_isRowOf rfl rfl⟩
  | load x => exact ⟨opcodeMap[33], List.getElem_mem _, rowX_isRowOf rfl rfl⟩
  | invalid w => exact absurd rfl (hi w)

/-! ## The laws of encode and decode (R72) -/

/-- R72 for an instruction that is no sentinel: its word decodes back to it, or to the sentinel where the configuration leaves the
instruction out (R76). -/
theorem decode_encode (p : Params) {i : Instr} (hi : ∀ w, i ≠ .invalid w) :
    decode p (encode i) = if i.isExt && !p.catalogExt then .invalid (encode i) else i := by
  obtain ⟨r, hr, hw⟩ := exists_isRowOf hi
  rw [decode_of_rowFits p hr hw.fits, hw.makes, hw.ext_eq]

theorem sentinelOk_iff (p : Params) (i : Instr) : sentinelOk p i = true ↔ ∀ w, i = .invalid w → illegalWord p w = true := by
  cases i <;> simp [sentinelOk]

theorem wellFormed_iff (p : Params) (i : Instr) :
    wellFormed p i = true ↔ (∀ w, i = .invalid w → illegalWord p w = true) ∧ (i.isExt = true → p.catalogExt = true) := by
  rw [wellFormed, Bool.and_eq_true, sentinelOk_iff, Bool.or_eq_true, Bool.not_eq_true', ← Bool.not_eq_true, imp_iff_not_or]

theorem decode_encode_of_wellFormed {p : Params} {i : Instr} (h : wellFormed p i = true) : decode p (encode i) = i := by
  obtain ⟨hsentinel, hext⟩ := (wellFormed_iff p i).1 h
  by_cases hi : ∃ w, i = .invalid w
  · obtain ⟨w, rfl⟩ := hi
    exact decode_of_illegal (hsentinel w rfl)
  · rw [decode_encode p (not_exists.1 hi), if_neg]
    simpa using hext

/-- A row's catalog is that of the instruction it makes (R70). -/
theorem make_isExt (w : Word) : ∀ r ∈ opcodeMap, (r.make w).isExt = r.ext := by
  simp [opcodeMap, rowA, rowXNN, rowXY, rowX, Instr.isExt]

theorem catalogExt_of_decode_isExt {p : Params} {w : Word} (h : (decode p w).isExt = true) : p.catalogExt = true := by
  obtain ⟨hd, -⟩ | ⟨r, hr, -, hd⟩ := decode_cases p w <;> rw [hd] at h
  · exact absurd h Bool.false_ne_true
  · split at h
    case isTrue => exact absurd h Bool.false_ne_true
    case isFalse hin =>
      rw [make_isExt w r hr] at h
      simpa [h] using hin

theorem wellFormed_decode (p : Params) (w : Word) : wellFormed p (decode p w) = true := by
  refine (wellFormed_iff p _).2 ⟨fun v hv => ?_, catalogExt_of_decode_isExt⟩
  have hvw : v = w := by simpa [hv, encode] using encode_decode p w
  rw [hvw, ← Bool.not_eq_false]
  exact fun hlegal => decode_of_legal hlegal v hv

/-- Settles O2, from the row of each instruction, the words the rows keep and R73's list. -/
theorem encodeAndDecodeAreInverse : Obligations.EncodeAndDecodeAreInverse := fun p =>
  ⟨fun _ => decode_encode_of_wellFormed, encode_decode p, wellFormed_decode p⟩

/-! ## The sentinel and the catalog (R73, R75, R76) -/

/-- Settles O3, from the row or the missing row of each word. -/
theorem sentinelIsExactlyTheIllegalWords : Obligations.SentinelIsExactlyTheIllegalWords := fun _ _ =>
  ⟨decode_of_illegal, decode_of_legal⟩

/-- Without the extended catalog the extended rows are left out of the decode, and nothing else (R76). -/
theorem decode_without_catalogExt (p : Params) (w : Word) :
    decode { p with catalogExt := false } w
      = if (decode { p with catalogExt := true } w).isExt then .invalid w else decode { p with catalogExt := true } w := by
  unfold decode
  cases hf : opcodeMap.find? (fun r => rowFits r w) with
  | none => rfl
  | some r => simp [make_isExt w r (List.mem_of_find?_eq_some hf)]

theorem readBytes_catalogExt (p : Params) (b : Bool) (m : Machine.Memory) (a n : Nat) :
    Machine.readBytes { p with catalogExt := b } m a n = Machine.readBytes p m a n := by
  induction n generalizing a with
  | zero => rfl
  | succ n ih => rw [Machine.readBytes, Machine.readBytes, ih]; rfl

theorem writeBytes_catalogExt (p : Params) (b : Bool) (m : Machine.Memory) (a : Nat) (bs : List Byte) :
    Machine.writeBytes { p with catalogExt := b } m a bs = Machine.writeBytes p m a bs := by
  induction bs generalizing m a with
  | nil => rfl
  | cons v bs ih => simp only [Machine.writeBytes, ih]; rfl

/-- No instruction's effect looks at `CATALOG_EXT` (R76): the transfers of several bytes by the lemmas above, every other effect as it
is defined. -/
theorem effect_catalogExt (p : Params) (b : Bool) (rnd : Byte) (i : Instr) (s : Machine.State) :
    Machine.effect { p with catalogExt := b } rnd i s = Machine.effect p rnd i s := by
  cases i with
  | draw x y n => simp only [Machine.effect, Machine.effDraw, readBytes_catalogExt]; rfl
  | bcd x => simp only [Machine.effect, Machine.effBcd, writeBytes_catalogExt]
  | stor x => simp only [Machine.effect, Machine.effStor, writeBytes_catalogExt]; rfl
  | load x => simp only [Machine.effect, Machine.effLoad, readBytes_catalogExt]; rfl
  | _ => rfl

/-- Settles O5: the rows left out of the decode, and an effect and a pc check that do not look at `CATALOG_EXT`. -/
theorem catalogExtChangesDecodingOnly : Obligations.CatalogExtChangesDecodingOnly := fun p =>
  ⟨decode_without_catalogExt p, fun b rnd i s =>
    congrArg (Machine.commit p (encode i) s) (effect_catalogExt p b rnd i s)⟩

/-- Settles O1: each word is evaluated. -/
theorem specWordsDecode : Obligations.SpecWordsDecode := by
  unfold Obligations.SpecWordsDecode
  decide

end Sys2Proof
end

section
/-! PROOFS. The statements of 40_register_moves.md, over the rule of every sequential instruction: one whose pseudocode ends with
`pc <- pc + 2` (R33, R46, R129). -/

namespace Sys2Proof.Machine

/-! ## The sequential instructions -/

/-- An instruction that is no sentinel is written as its encoding (R72, R76). -/
theorem encodedAs_encode {i : Instr} (hi : ∀ w, i ≠ .invalid w) : EncodedAs i (encode i) :=
  ⟨rfl, fun p => decode_encode p hi⟩

section Sequential

variable {p : Params} {rnd : Byte} {i : Instr} {s u : State}

/-- A sequential effect with a legal next pc commits its writes and moves the pc on by 2 (R33, R46). -/
theorem execWith_sequential (he : effect p rnd i s = .ok (sequential u)) (hpc : u.pc = s.pc) (hfits : SeqFits p s) :
    execWith p rnd i s = .next (advance 2 u) := by
  obtain ⟨heven, hmem⟩ := hfits
  have hadvance : BitVec.ofNat 16 (u.pc.toNat + 2) = u.pc + BitVec.ofNat 16 2 := by simp [BitVec.ofNat_add]
  rw [execWith, he, commit_ok (by simp only [sequential, hpc]; omega) (by simp only [sequential, hpc]; omega)]
  simp only [sequential, advance, hadvance]

/-- A sequential effect at the last word of memory raises PcOutOfBounds (R129). -/
theorem execWith_sequential_lastWord (he : effect p rnd i s = .ok (sequential u)) (hpc : u.pc = s.pc) (hlast : LastWord p s) :
    execWith p rnd i s = .next (haltedOn i .pcOutOfBounds (some p.memSize) s) := by
  obtain ⟨-, hmem⟩ := hlast
  have hnpc : (sequential u).npc = p.memSize := by rw [sequential, hpc, hmem]
  rw [execWith, he, commit_bad_pc (.inr (by omega)), hnpc]
  rfl

theorem sequentialWith_of_effect {f : State → State} (he : ∀ s, effect p rnd i s = .ok (sequential (f s)))
    (hpc : ∀ s, (f s).pc = s.pc) : SequentialWith p rnd i f := fun s =>
  ⟨execWith_sequential (he s) (hpc s), execWith_sequential_lastWord (he s) (hpc s)⟩

/-- `exec` is sequential where the effect is, at the spec's parameter values and the free value of each state (log entry 1). -/
theorem sequential_of_effect {f : State → State} (he : ∀ s, effect params (Config.rnd s.draws) i s = .ok (sequential (f s)))
    (hpc : ∀ s, (f s).pc = s.pc) : Sequential i f := by
  intro s
  rw [exec_eq_execWith]
  refine ⟨execWith_sequential (he s) (hpc s), fun hlast => execWith_sequential_lastWord (he s) (hpc s) ?_⟩
  rw [LastWord, hlast]
  decide

end Sequential

/-! ## The moves (R85, R86) -/

/-- Settles O17: both moves are sequential, with one register write pending. -/
theorem moveResults : Obligations.MoveResults :=
  ⟨fun _ _ => ⟨encodedAs_encode nofun, sequential_of_effect (fun _ => rfl) fun _ => rfl,
      fun _ _ => sequentialWith_of_effect (fun _ => rfl) fun _ => rfl⟩,
    fun _ _ => ⟨encodedAs_encode nofun, sequential_of_effect (fun _ => rfl) fun _ => rfl,
      fun _ _ => sequentialWith_of_effect (fun _ => rfl) fun _ => rfl⟩⟩

end Sys2Proof.Machine
end

section
/-! PROOFS. The statements of 41_alu.md: the value and the flag of each operation as arithmetic on the operands (R87), then each instruction
as a sequential one with that register write, and that flag write after it (R28), pending. -/

namespace Sys2Proof.Machine

/-! ## The values and the flags as arithmetic (R87) -/

theorem sub_eq_ofNat (a b : Byte) : a - b = BitVec.ofNat 8 (a.toNat + 256 - b.toNat) := by
  have hb : b.toNat < 256 := b.isLt
  rw [BitVec.sub_def]
  congr 1
  omega

theorem ushiftRight_one_eq_ofNat (a : Byte) : a >>> 1 = BitVec.ofNat 8 (a.toNat / 2) := by
  have ha : a.toNat / 2 < 2 ^ 8 := by omega
  apply BitVec.eq_of_toNat_eq
  rw [BitVec.toNat_ushiftRight, Nat.shiftRight_eq_div_pow, BitVec.toNat_ofNat, Nat.mod_eq_of_lt ha]

theorem shiftLeft_one_eq_ofNat (a : Byte) : a <<< 1 = BitVec.ofNat 8 (2 * a.toNat) := by
  apply BitVec.eq_of_toNat_eq
  rw [BitVec.toNat_shiftLeft, Nat.shiftLeft_eq, BitVec.toNat_ofNat, Nat.mul_comm]

/-- The bit a right shift shifts out is the operand's parity. -/
theorem outRight_eq_decide (a : Byte) : outRight a = decide (a.toNat % 2 = 1) :=
  Nat.testBit_zero a.toNat

/-- The bit a left shift shifts out is the operand's top bit. -/
theorem outLeft_eq_decide (a : Byte) : outLeft a = decide (128 ≤ a.toNat) :=
  BitVec.getLsbD_last a

theorem shiftOperand_eq_ite (p : Params) (x y : Reg) (s : State) :
    shiftOperand p x y s = if p.shiftSrc = .vx then s.reg x else s.reg y := by
  unfold shiftOperand
  cases p.shiftSrc <;> rfl

/-! ## The shapes of an ALU instruction -/

section Shapes

variable {i : Instr} {x : Reg}

/-- An effect that is sequential for any parameters and any `rnd` gives the encoding, the result of `exec` and that of `execWith`. -/
theorem results_of_effect {f : Params → Byte → State → State}
    (he : ∀ p rnd s, effect p rnd i s = .ok (sequential (f p rnd s))) (hpc : ∀ p rnd s, (f p rnd s).pc = s.pc)
    (hi : ∀ w, i ≠ .invalid w) :
    EncodedAs i (encode i) ∧ Sequential i (fun s => f params (Config.rnd s.draws) s)
      ∧ ∀ p rnd, SequentialWith p rnd i (f p rnd) :=
  ⟨encodedAs_encode hi, sequential_of_effect (fun s => he params (Config.rnd s.draws) s) fun s => hpc params (Config.rnd s.draws) s,
    fun p rnd => sequentialWith_of_effect (he p rnd) (hpc p rnd)⟩

/-- A logic operation: at the spec's parameter values the flag stays, as `LOGIC_RESETS_FLAG` is false there (R18). -/
theorem logic_results (v : State → Byte)
    (he : ∀ p rnd s, effect p rnd i s = .ok (sequential (logicFlag p (s.setReg x (v s))))) (hi : ∀ w, i ≠ .invalid w) :
    EncodedAs i (encode i) ∧ Sequential i (fun s => s.setReg x (v s))
      ∧ ∀ p rnd, SequentialWith p rnd i fun s =>
          if p.logicResetsFlag then writeFlag p false (s.setReg x (v s)) else s.setReg x (v s) :=
  results_of_effect (f := fun p _ s => logicFlag p (s.setReg x (v s))) he
    (fun p _ s => logicFlag_pc p (s.setReg x (v s))) hi

/-- An operation with a flag output: at the spec's parameter values the flag write, which is the later one, is that of register 15 (R28). -/
theorem flagged_results {v : Params → State → Byte} {b : Params → State → Bool}
    (he : ∀ p rnd s, effect p rnd i s = .ok (sequential (writeFlag p (b p s) (s.setReg x (v p s))))) (hi : ∀ w, i ≠ .invalid w) :
    EncodedAs i (encode i) ∧ Sequential i (fun s => (s.setReg x (v params s)).setReg 15 (bit (b params s)))
      ∧ ∀ p rnd, SequentialWith p rnd i fun s => writeFlag p (b p s) (s.setReg x (v p s)) :=
  results_of_effect (f := fun p _ s => writeFlag p (b p s) (s.setReg x (v p s))) he
    (fun p _ s => writeFlag_pc p (b p s) (s.setReg x (v p s))) hi

end Shapes

/-! ## The effects with a flag output, their values as arithmetic -/

section Effects

variable (p : Params) (rnd : Byte) (x y : Reg) (s : State)

theorem effect_addReg :
    effect p rnd (.addReg x y) s = .ok (sequential (writeFlag p (decide (255 < (s.reg x).toNat + (s.reg y).toNat))
      (s.setReg x (BitVec.ofNat 8 ((s.reg x).toNat + (s.reg y).toNat))))) := by
  rw [effect, effAddReg, carryOut, BitVec.add_def]

theorem effect_sub :
    effect p rnd (.sub x y) s = .ok (sequential (writeFlag p (decide ((s.reg y).toNat ≤ (s.reg x).toNat))
      (s.setReg x (BitVec.ofNat 8 ((s.reg x).toNat + 256 - (s.reg y).toNat))))) := by
  rw [effect, effSub, noBorrow, sub_eq_ofNat]

theorem effect_subn :
    effect p rnd (.subn x y) s = .ok (sequential (writeFlag p (decide ((s.reg x).toNat ≤ (s.reg y).toNat))
      (s.setReg x (BitVec.ofNat 8 ((s.reg y).toNat + 256 - (s.reg x).toNat))))) := by
  rw [effect, effSubn, noBorrow, sub_eq_ofNat]

theorem effect_shr :
    effect p rnd (.shr x y) s = .ok (sequential (writeFlag p (decide ((shiftOperand p x y s).toNat % 2 = 1))
      (s.setReg x (BitVec.ofNat 8 ((shiftOperand p x y s).toNat / 2))))) := by
  rw [effect, effShr, outRight_eq_decide, ushiftRight_one_eq_ofNat]

theorem effect_shl :
    effect p rnd (.shl x y) s = .ok (sequential (writeFlag p (decide (128 ≤ (shiftOperand p x y s).toNat))
      (s.setReg x (BitVec.ofNat 8 (2 * (shiftOperand p x y s).toNat))))) := by
  rw [effect, effShl, outLeft_eq_decide, shiftLeft_one_eq_ofNat]

end Effects

/-! ## The statements of 41_alu.md -/

/-- Settles O18: the pending write is the sum mod 256, and no flag write follows it. -/
theorem addImmediateResult : Obligations.AddImmediateResult := fun x nn =>
  results_of_effect (f := fun _ _ s => s.setReg x (BitVec.ofNat 8 ((s.reg x).toNat + nn.toNat)))
    (fun _ _ s => by rw [effect, effAddImm, BitVec.add_def]) (fun _ _ _ => rfl) nofun

/-- Settles O19: the three operations differ in the value written alone. -/
theorem logicResults : Obligations.LogicResults := fun x y =>
  ⟨logic_results (fun s => s.reg x ||| s.reg y) (fun _ _ _ => rfl) nofun,
    logic_results (fun s => s.reg x &&& s.reg y) (fun _ _ _ => rfl) nofun,
    logic_results (fun s => s.reg x ^^^ s.reg y) (fun _ _ _ => rfl) nofun⟩

/-- Settles O20: the carry is written after the sum, so with X = 15 it remains. -/
theorem addRegisterResult : Obligations.AddRegisterResult := fun x y =>
  flagged_results (fun p rnd s => effect_addReg p rnd x y s) nofun

/-- Settles O21: `subn` is `sub` with the operands exchanged, in the difference and in the comparison. -/
theorem subtractResults : Obligations.SubtractResults := fun x y =>
  ⟨flagged_results (fun p rnd s => effect_sub p rnd x y s) nofun, flagged_results (fun p rnd s => effect_subn p rnd x y s) nofun⟩

/-- Settles O22: each shift by the operand `SHIFT_SRC` selects, which at the spec's parameter values is register X (R17). -/
theorem shiftResults : Obligations.ShiftResults := by
  intro x y
  simp only [← shiftOperand_eq_ite]
  exact ⟨flagged_results (fun p rnd s => effect_shr p rnd x y s) nofun,
    flagged_results (fun p rnd s => effect_shl p rnd x y s) nofun⟩

/-- Settles O23: the write is pending for every `rnd`, and `exec` runs it at the free value of the state's counter. -/
theorem randResult : Obligations.RandResult := fun x nn =>
  results_of_effect (f := fun _ rnd s => { s.setReg x (rnd &&& nn) with draws := s.draws + 1 })
    (fun _ _ _ => rfl) (fun _ _ _ => rfl) nofun

end Sys2Proof.Machine
end

section
/-! PROOFS. The statements of 42_skips.md, over the rule of every skip: one whose pseudocode ends with the skip source of the next-pc
multiplexer (R33, R98). -/

namespace Sys2Proof.Machine

/-! ## The skip source (R33, R98) -/

section Skip

variable {p : Params} {rnd : Byte} {i : Instr} {s : State} {c : Bool}

theorem skipIf_npc (c : Bool) (s : State) : (skipIf c s).npc = s.pc.toNat + (if c then 4 else 2) := by
  cases c <;> rfl

/-- The skip source keeps an even pc even. -/
theorem skipIf_npc_even (c : Bool) (heven : s.pc.toNat % 2 = 0) : (skipIf c s).npc % 2 = 0 := by
  rw [skipIf_npc]
  split <;> omega

/-- A skip whose next pc is legal moves the pc on by 4 or by 2 and writes nothing else (R98). -/
theorem execWith_skipIf (he : effect p rnd i s = .ok (skipIf c s)) (heven : s.pc.toNat % 2 = 0)
    (hmem : s.pc.toNat + (if c then 4 else 2) + 2 ≤ p.memSize) :
    execWith p rnd i s = .next (advance (if c then 4 else 2) s) := by
  rw [← skipIf_npc] at hmem
  rw [execWith, he, commit_ok (skipIf_npc_even c heven) hmem, skipIf_npc, BitVec.ofNat_add, BitVec.ofNat_toNat, BitVec.setWidth_eq]
  rfl

/-- A skip whose next pc is past the last word of memory raises PcOutOfBounds with that pc as detail (R98, R129). -/
theorem execWith_skipIf_outside (he : effect p rnd i s = .ok (skipIf c s))
    (hmem : p.memSize < s.pc.toNat + (if c then 4 else 2) + 2) :
    execWith p rnd i s = .next (haltedOn i .pcOutOfBounds (some (s.pc.toNat + (if c then 4 else 2))) s) := by
  rw [← skipIf_npc] at hmem ⊢
  rw [execWith, he, commit_bad_pc (.inr hmem)]
  rfl

/-- `exec` skips where the effect does, at the spec's parameter values. -/
theorem skipsOn_of_effect {c : State → Bool} (he : ∀ rnd s, effect params rnd i s = .ok (skipIf (c s) s)) : SkipsOn i c := by
  intro s heven _
  rw [exec_eq_execWith]
  exact ⟨execWith_skipIf (he _ s) heven, execWith_skipIf_outside (he _ s)⟩

end Skip

/-- The test of the `sne` skips as a proposition's (R100, R102). -/
theorem bne_eq_decide_ne (a b : Byte) : (a != b) = decide (a ≠ b) :=
  (decide_not (p := a = b)).symm

/-! ## The key skips (R21, R103, R104, R130) -/

section KeyIndex

variable {p : Params} {v : Byte}

/-- Without the mask the key is the whole register. -/
theorem keyIndex_unmasked (hmask : p.keyIndexMask = false) (hkey : v.toNat ≤ 15) : keyIndex p v = .ok v.toNat := by
  simp [keyIndex, hmask, hkey]

/-- Without the mask a register above 15 names no key (R130). -/
theorem keyIndex_out_of_range (hmask : p.keyIndexMask = false) (habove : 15 < v.toNat) :
    keyIndex p v = .error ⟨.keyIndexOutOfRange, some v.toNat⟩ := by
  simp [keyIndex, hmask, habove]

end KeyIndex

/-- An instruction whose effect raises ends in that fault (R132). -/
theorem execWith_raise {p : Params} {rnd : Byte} {i : Instr} {s : State} {r : Raise} (he : effect p rnd i s = .error r) :
    execWith p rnd i s = .next (haltedOn i r.reason r.detail s) := by
  rw [execWith, he]
  rfl

/-- `i` is a key skip on register X: it skips on the condition `c` of the keypad and the key (R103, R104). -/
def IsKeySkip (i : Instr) (x : Reg) (c : Word → Nat → Bool) : Prop :=
  ∀ p rnd s, effect p rnd i s = (keyIndex p (s.reg x)).map fun k => skipIf (c s.KEYS k) s

theorem skp_isKeySkip (x : Reg) : IsKeySkip (.skp x) x fun keys k => keys.getLsbD k := by
  intro p rnd s
  rw [effect, effSkp]
  cases keyIndex p (s.reg x) <;> rfl

theorem sknp_isKeySkip (x : Reg) : IsKeySkip (.sknp x) x fun keys k => !keys.getLsbD k := by
  intro p rnd s
  rw [effect, effSknp]
  cases keyIndex p (s.reg x) <;> rfl

namespace IsKeySkip

variable {p : Params} {rnd : Byte} {i : Instr} {x : Reg} {c : Word → Nat → Bool} {s : State}

/-- At the spec's parameter values `KEY_INDEX_MASK` is true, and a key skip tests the low nibble's key (R21). -/
theorem skipsOn (h : IsKeySkip i x c) : SkipsOn i fun s => c s.KEYS ((s.reg x).toNat % 16) :=
  skipsOn_of_effect fun rnd s => by
    rw [h params rnd s, keyIndex_masked rfl]
    rfl

theorem execWith_out_of_range (h : IsKeySkip i x c) (hmask : p.keyIndexMask = false) (habove : 15 < (s.reg x).toNat) :
    execWith p rnd i s = .next (haltedOn i .keyIndexOutOfRange (some (s.reg x).toNat) s) := by
  have he := h p rnd s
  rw [keyIndex_out_of_range hmask habove] at he
  exact execWith_raise he

/-- With a legal pc on both sides of its condition an unmasked key skip completes. -/
theorem execWith_unmasked (h : IsKeySkip i x c) (hmask : p.keyIndexMask = false) (hkey : (s.reg x).toNat ≤ 15)
    (heven : s.pc.toNat % 2 = 0) (hmem : s.pc.toNat + 6 ≤ p.memSize) :
    execWith p rnd i s = .next (advance (if c s.KEYS (s.reg x).toNat then 4 else 2) s) := by
  have he := h p rnd s
  rw [keyIndex_unmasked hmask hkey] at he
  exact execWith_skipIf he heven (by split <;> omega)

end IsKeySkip

/-! ## The statements of 42_skips.md -/

/-- Settles O24: each of the four is a skip on its comparison, and the skip source alone moves the pc. -/
theorem valueSkipResults : Obligations.ValueSkipResults :=
  ⟨fun _ _ => ⟨encodedAs_encode nofun, skipsOn_of_effect fun _ _ => rfl⟩,
    fun _ _ => ⟨encodedAs_encode nofun, skipsOn_of_effect fun _ _ => by rw [effect, effSneImm, bne_eq_decide_ne]⟩,
    fun _ _ => ⟨encodedAs_encode nofun, skipsOn_of_effect fun _ _ => rfl⟩,
    fun _ _ => ⟨encodedAs_encode nofun, skipsOn_of_effect fun _ _ => by rw [effect, effSneReg, bne_eq_decide_ne]⟩⟩

/-- Settles O25: the two are one rule, on a key's bit and on its complement. -/
theorem keySkipResults : Obligations.KeySkipResults := by
  intro x
  have hskp := skp_isKeySkip x
  have hsknp := sknp_isKeySkip x
  refine ⟨encodedAs_encode nofun, encodedAs_encode nofun, hskp.skipsOn, hsknp.skipsOn, fun p rnd s hmask => ⟨fun habove => ?_, ?_⟩⟩
  · exact ⟨hskp.execWith_out_of_range hmask habove, hsknp.execWith_out_of_range hmask habove⟩
  · intro hkey heven hmem
    refine ⟨hskp.execWith_unmasked hmask hkey heven hmem, ?_⟩
    rw [hsknp.execWith_unmasked hmask hkey heven hmem]
    cases s.KEYS.getLsbD (s.reg x).toNat <;> rfl

end Sys2Proof.Machine
end

section
/-! PROOFS. The statements of 43_control_transfer.md, over the rule of every transfer: an instruction whose next pc is an address of its
own, not one counted from the pc (R33). -/

namespace Sys2Proof.Machine

/-! ## The transfer sources (R33) -/

section Transfer

variable {p : Params} {rnd : Byte} {i : Instr} {a : Nat} {s u : State}

/-- A transfer to a legal pc commits its writes and goes there, from any pc (R32, R46). -/
theorem execWith_transferTo (he : effect p rnd i s = .ok (transferTo a u)) (hlegal : a % 2 = 0 ∧ a + 2 ≤ p.memSize) :
    execWith p rnd i s = .next (goTo a u) := by
  obtain ⟨heven, hmem⟩ := hlegal
  rw [execWith, he, commit_ok heven hmem]
  rfl

/-- A transfer to an address that is no legal pc raises PcOutOfBounds with that address, and its writes are dropped (R129, R132). -/
theorem execWith_transferTo_illegal (he : effect p rnd i s = .ok (transferTo a u)) (hbad : a % 2 = 1 ∨ p.memSize < a + 2) :
    execWith p rnd i s = .next (haltedOn i .pcOutOfBounds (some a) s) := by
  rw [execWith, he, commit_bad_pc hbad]
  rfl

/-- `exec` transfers where the effect does, at the spec's parameter values: the last legal pc is 0xFFE. -/
theorem transfersTo_of_effect {f : State → State} (he : ∀ rnd, effect params rnd i s = .ok (transferTo a (f s))) :
    TransfersTo i a f s := by
  have hsize : params.memSize = 4096 := rfl
  rw [TransfersTo, exec_eq_execWith]
  exact ⟨fun hlegal => execWith_transferTo (he _) (by omega), fun hbad => execWith_transferTo_illegal (he _) (by omega)⟩

end Transfer

/-! ## The call stack (R34, R36, R37) -/

/-- After a push the top entry is the pushed one and every other entry is as before (R36). -/
theorem stackAt_of_push {s t : State} {v : RetAddr} (ht : t.S = s.S.set s.SP v) (hroom : s.SP < s.S.length) (k : Nat) :
    t.stackAt k = if k = s.SP then v else s.stackAt k := by
  rw [State.stackAt, State.stackAt, ht]
  by_cases hk : k = s.SP
  · simp [hk, hroom]
  · simp [hk, Ne.symm hk, List.getD_eq_getElem?_getD]

/-- A return address fits the 17 bits of an entry, so it is held whole (R34). -/
theorem returnAddress_toNat (pc : Word) : (BitVec.ofNat 17 (pc.toNat + 2) : RetAddr).toNat = pc.toNat + 2 := by
  have hpc : pc.toNat < 65536 := pc.isLt
  rw [BitVec.toNat_ofNat]
  omega

/-- With room on the stack a call is a transfer with the push pending (R106). -/
theorem call_transfersTo (nnn : Addr) {s : State} (hroom : s.SP < params.stackDepth) :
    TransfersTo (.call nnn) nnn.toNat
      (fun s => { s with S := s.S.set s.SP (BitVec.ofNat 17 (s.pc.toNat + 2)), SP := s.SP + 1 }) s :=
  transfersTo_of_effect fun _ => by rw [effect, effCall, push_ok _ hroom]

theorem exec_call_full (nnn : Addr) {s : State} (hfull : params.stackDepth ≤ s.SP) :
    exec (.call nnn) s = .next (haltedOn (.call nnn) .stackOverflow none s) := by
  rw [exec_eq_execWith]
  exact execWith_raise (r := ⟨.stackOverflow, none⟩) (by rw [effect, effCall, push_full _ hfull])

/-- With an entry in use a return is a transfer to the top one with the pop pending (R107). -/
theorem ret_transfersTo {s : State} (hused : 0 < s.SP) :
    TransfersTo .ret (s.stackAt (s.SP - 1)).toNat (fun s => { s with SP := s.SP - 1 }) s :=
  transfersTo_of_effect fun _ => by rw [effect, effRet, pop_ok hused]

theorem exec_ret_empty {s : State} (hempty : s.SP = 0) : exec .ret s = .next (haltedOn .ret .stackUnderflow none s) := by
  rw [exec_eq_execWith]
  exact execWith_raise (r := ⟨.stackUnderflow, none⟩) (by rw [effect, effRet, pop_empty hempty])

/-! ## The offset of `jmpo` (R19, R108) -/

/-- Bits 11:8 of an address field as a quotient. -/
theorem topNibble_eq_ofNat (nnn : Addr) : nnn.extractLsb' 8 4 = BitVec.ofNat 4 (nnn.toNat / 256) := by
  rw [BitVec.extractLsb', Nat.shiftRight_eq_div_pow]

theorem jumpOffset_vx {p : Params} (h : p.jumpOffsetReg = .vx) (nnn : Addr) (s : State) :
    jumpOffset p nnn s = s.reg (BitVec.ofNat 4 (nnn.toNat / 256)) := by
  rw [jumpOffset, h, ← topNibble_eq_ofNat]

theorem effect_jmpo_vx {p : Params} (h : p.jumpOffsetReg = .vx) (rnd : Byte) (nnn : Addr) (s : State) :
    effect p rnd (.jmpo nnn) s
      = .ok (transferTo (nnn.toNat + (s.reg (BitVec.ofNat 4 (nnn.toNat / 256))).toNat) s) := by
  rw [effect, effJmpo, jumpOffset_vx h]

/-! ## The statements of 43_control_transfer.md -/

/-- Settles O26: the jump is a transfer to NNN that writes nothing else. -/
theorem jumpResult : Obligations.JumpResult := fun _ _ =>
  ⟨encodedAs_encode nofun, transfersTo_of_effect fun _ => rfl⟩

/-- Settles O27: with room the call is a transfer to NNN with the push pending; without, the push raises whatever the target is. -/
theorem callResult : Obligations.CallResult := by
  intro nnn s
  refine ⟨encodedAs_encode nofun, fun hlen hroom heven hmem => ?_, exec_call_full nnn, fun hroom => (call_transfersTo nnn hroom).2⟩
  have hlength : s.SP < s.S.length := hlen.symm ▸ hroom
  refine ⟨_, (call_transfersTo nnn hroom).1 ⟨heven, hmem⟩, rfl, (List.length_set ..).trans hlen, ?_, fun k hk => ?_⟩
  · rw [stackAt_of_push rfl hlength, if_pos rfl, returnAddress_toNat]
  · rw [stackAt_of_push rfl hlength, if_neg hk]

/-- Settles O28: an empty stack raises in the pop, and any other return is a transfer to the popped address itself. -/
theorem returnResult : Obligations.ReturnResult :=
  ⟨encodedAs_encode nofun, fun _ => ⟨exec_ret_empty, ret_transfersTo⟩⟩

/-- Settles O29: a transfer to the whole sum, with the register `JUMP_OFFSET_REG` selects. -/
theorem jumpOffsetResult : Obligations.JumpOffsetResult := fun nnn s =>
  ⟨encodedAs_encode nofun, transfersTo_of_effect fun _ => rfl, fun _ rnd hvx =>
    ⟨execWith_transferTo (effect_jmpo_vx hvx rnd nnn s), execWith_transferTo_illegal (effect_jmpo_vx hvx rnd nnn s)⟩⟩

end Sys2Proof.Machine
end

section
/-! PROOFS. The statements of 44_display.md: `ldf` and `cls` as sequential instructions, and `draw` by what it leaves
pending, pixel by pixel. -/

namespace Sys2Proof.Machine

/-! ## The font address (R110) -/

theorem fontIndex_eq_ite (p : Params) (v : Byte) : fontIndex p v = if p.fontIndexMask then v.toNat % 16 else v.toNat := by
  rw [fontIndex, and_low_nibble]

theorem fontAddress_of_lt {a : Nat} (h : a < 65536) : fontAddress a = BitVec.ofNat 16 a := if_pos h

theorem effect_ldf (p : Params) (rnd : Byte) (x : Reg) (s : State) :
    effect p rnd (.ldf x) s = .ok (sequential { s with
      I := fontAddress (p.fontBase + 5 * (if p.fontIndexMask then (s.reg x).toNat % 16 else (s.reg x).toNat)) }) := by
  rw [effect, effLdf, fontIndex_eq_ite]

/-- At the spec's parameter values the address is one of a glyph, so it fits `I`. -/
theorem effect_ldf_params (rnd : Byte) (x : Reg) (s : State) :
    effect params rnd (.ldf x) s
      = .ok (sequential { s with I := BitVec.ofNat 16 (0x050 + 5 * ((s.reg x).toNat % 16)) }) := by
  have hfits : 0x050 + 5 * ((s.reg x).toNat % 16) < 65536 := by omega
  rw [effect_ldf, ← fontAddress_of_lt hfits]
  rfl

/-! ## Framebuffers -/

theorem grid_const (p : Params) (b : Bool) : grid p (fun _ _ => b) = List.replicate p.fbH (List.replicate p.fbW b) := by
  simp [grid, List.map_const']

/-- Two framebuffers of the configuration's size with the same pixels are the same. -/
theorem framebuffer_ext {p : Params} {fb fb' : List (List Bool)} (hrows : fb.length = p.fbH) (hcols : ∀ row ∈ fb, row.length = p.fbW)
    (hrows' : fb'.length = p.fbH) (hcols' : ∀ row ∈ fb', row.length = p.fbW)
    (hpixels : ∀ py px, py < p.fbH → px < p.fbW → pixel fb py px = pixel fb' py px) : fb = fb' := by
  refine List.ext_getElem (hrows.trans hrows'.symm) fun py hy hy' => ?_
  have hrow := hcols _ (List.getElem_mem hy)
  refine List.ext_getElem (hrow.trans (hcols' _ (List.getElem_mem hy')).symm) fun px hx hx' => ?_
  have hpixel := hpixels py px (hrows ▸ hy) (hrow ▸ hx)
  simpa [pixel, List.getD_eq_getElem?_getD, hy, hy', hx, hx'] using hpixel

/-! ## What `draw` leaves pending (R112) -/

/-- The state before with the sprite XORed on and the collision in the flag: the pending writes of `draw rX rY N` when its rows lie in
memory. -/
def drawn (p : Params) (x y : Reg) (n : Nibble) (s : State) : State :=
  let x0 := (s.reg x).toNat % p.fbW
  let y0 := (s.reg y).toNat % p.fbH
  let rows := bytesFrom p s.M s.I.toNat n.toNat
  writeFlag p (collision p s.FB x0 y0 rows) { s with FB := xorSprite p s.FB x0 y0 rows }

theorem effect_draw {p : Params} (rnd : Byte) (x y : Reg) {n : Nibble} {s : State}
    (hrows : n.toNat = 0 ∨ s.I.toNat + n.toNat ≤ p.memSize) :
    effect p rnd (.draw x y n) s = .ok (sequential (drawn p x y n s)) := by
  simp only [effect, effDraw, readBytes_ok p s.M s.I.toNat n.toNat hrows, drawn]

/-- A row outside memory raises before anything is pending. -/
theorem effect_draw_outside {p : Params} (rnd : Byte) (x y : Reg) {n : Nibble} {s : State} (hn : 0 < n.toNat)
    (hout : p.memSize < s.I.toNat + n.toNat) :
    effect p rnd (.draw x y n) s = .error ⟨.memoryOutOfBounds, some (max s.I.toNat p.memSize)⟩ := by
  simp only [effect, effDraw, readBytes_error p s.M s.I.toNat n.toNat hn hout]

section Drawn

variable {x y : Reg} {n : Nibble} {s t : State} {py px : Nat}

theorem drawn_pc (p : Params) (x y : Reg) (n : Nibble) (s : State) : (drawn p x y n s).pc = s.pc := writeFlag_pc ..

theorem drawn_FB (p : Params) (x y : Reg) (n : Nibble) (s : State) :
    (drawn p x y n s).FB = xorSprite p s.FB ((s.reg x).toNat % p.fbW) ((s.reg y).toNat % p.fbH)
      (bytesFrom p s.M s.I.toNat n.toNat) := writeFlag_FB ..

theorem drawn_rows (p : Params) (x y : Reg) (n : Nibble) (s : State) : (drawn p x y n s).FB.length = p.fbH := by
  rw [drawn_FB]; exact grid_length p _

theorem drawn_columns (p : Params) (x y : Reg) (n : Nibble) (s : State) : ∀ row ∈ (drawn p x y n s).FB, row.length = p.fbW := by
  rw [drawn_FB]; exact grid_columns p _

/-- The pixels the sprite covers are those the statements name. -/
theorem covers_eq_true_iff (s : State) (x y : Reg) (n : Nibble) (py px : Nat) :
    covers params ((s.reg x).toNat % params.fbW) ((s.reg y).toNat % params.fbH) (bytesFrom params s.M s.I.toNat n.toNat) py px = true
      ↔ SpritePixel s x y n py px := by
  rw [covers_iff, bytesFrom_length]
  refine exists_congr fun r => exists_congr fun c => and_congr_right fun hr => ?_
  rw [bytesFrom_getD _ _ hr]
  rfl

/-- A pixel of the sprite lies on the screen, as every pixel wraps. -/
theorem SpritePixel.bounds (h : SpritePixel s x y n py px) : py < 32 ∧ px < 64 := by
  obtain ⟨r, c, -, -, -, rfl, rfl⟩ := h
  exact ⟨Nat.mod_lt _ (by decide), Nat.mod_lt _ (by decide)⟩

theorem pixel_drawn (x y : Reg) (n : Nibble) (s : State) (hy : py < 32) (hx : px < 64) :
    pixel (drawn params x y n s).FB py px = (pixel s.FB py px ^^
      covers params ((s.reg x).toNat % params.fbW) ((s.reg y).toNat % params.fbH) (bytesFrom params s.M s.I.toNat n.toNat) py px) := by
  rw [drawn_FB]
  exact pixel_grid params _ hy hx

theorem pixel_drawn_of_spritePixel (h : SpritePixel s x y n py px) :
    pixel (drawn params x y n s).FB py px = !pixel s.FB py px := by
  obtain ⟨hy, hx⟩ := h.bounds
  rw [pixel_drawn x y n s hy hx, (covers_eq_true_iff s x y n py px).2 h, Bool.xor_true]

theorem pixel_drawn_of_not_spritePixel (hy : py < 32) (hx : px < 64) (h : ¬ SpritePixel s x y n py px) :
    pixel (drawn params x y n s).FB py px = pixel s.FB py px := by
  rw [← covers_eq_true_iff, Bool.not_eq_true] at h
  rw [pixel_drawn x y n s hy hx, h, Bool.xor_false]

theorem reg_drawn_ne {r : Reg} (hr : r ≠ 15) : (drawn params x y n s).reg r = s.reg r :=
  reg_writeFlag_ne params _ _ (.inl hr)

/-- The flag after the draw is the collision of the sprite with the framebuffer before it. -/
theorem reg_drawn_flag (x y : Reg) (n : Nibble) (s : State) :
    (drawn params x y n s).reg 15 = bit (collision params s.FB ((s.reg x).toNat % params.fbW) ((s.reg y).toNat % params.fbH)
      (bytesFrom params s.M s.I.toNat n.toNat)) :=
  reg_setReg_self _ 15 _

theorem reg_drawn_flag_of_hit (h : ∃ py px, SpritePixel s x y n py px ∧ pixel s.FB py px = true) :
    (drawn params x y n s).reg 15 = 1 := by
  rw [reg_drawn_flag, (collision_eq_true_iff s x y n).2 h]
  rfl

theorem reg_drawn_flag_of_no_hit (h : ¬ ∃ py px, SpritePixel s x y n py px ∧ pixel s.FB py px = true) :
    (drawn params x y n s).reg 15 = 0 := by
  rw [← collision_eq_true_iff, Bool.not_eq_true] at h
  rw [reg_drawn_flag, h]
  rfl

theorem reg_drawn_flag_eq_one_iff :
    (drawn params x y n s).reg 15 = 1 ↔ ∃ py px, SpritePixel s x y n py px ∧ pixel s.FB py px = true := by
  refine ⟨fun h => ?_, reg_drawn_flag_of_hit⟩
  by_contra hno
  rw [reg_drawn_flag_of_no_hit hno] at h
  exact absurd h (by decide)

/-- The sprite and its place depend on memory, `I` and the two coordinate registers alone. -/
theorem spritePixel_congr (hM : t.M = s.M) (hI : t.I = s.I) (hx : t.reg x = s.reg x) (hy : t.reg y = s.reg y) :
    SpritePixel t x y n py px ↔ SpritePixel s x y n py px := by
  simp only [SpritePixel, State.byteAt, hM, hI, hx, hy]

/-- After a draw whose coordinate registers are not the flag register, the same draw has the same sprite at the same place. -/
theorem spritePixel_drawn (hx : x ≠ 15) (hy : y ≠ 15) :
    SpritePixel (drawn params x y n s) x y n py px ↔ SpritePixel s x y n py px :=
  spritePixel_congr rfl rfl (reg_drawn_ne hx) (reg_drawn_ne hy)

/-- The second of two equal draws inverts the same pixels again. -/
theorem pixel_drawn_drawn (hx : x ≠ 15) (hy : y ≠ 15) (hpy : py < 32) (hpx : px < 64) :
    pixel (drawn params x y n (drawn params x y n s)).FB py px = pixel s.FB py px := by
  by_cases h : SpritePixel s x y n py px
  · rw [pixel_drawn_of_spritePixel ((spritePixel_drawn hx hy).2 h), pixel_drawn_of_spritePixel h, Bool.not_not]
  · rw [pixel_drawn_of_not_spritePixel hpy hpx fun h' => h ((spritePixel_drawn hx hy).1 h'),
      pixel_drawn_of_not_spritePixel hpy hpx h]

/-- No part of what a draw leaves pending depends on the pc or the status. -/
theorem drawn_withPc (p : Params) (x y : Reg) (n : Nibble) (s : State) (pc : Word) (st : Status) :
    drawn p x y n { s with pc := pc, status := st } = { drawn p x y n s with pc := pc, status := st } := by
  cases hm : p.flagMode
  · simp only [drawn, writeFlag_aliased hm]; rfl
  · simp only [drawn, writeFlag_separate hm]; rfl

/-- A draw that ends Running has committed its pending writes. -/
theorem exec_draw_running (h : exec (.draw x y n) s = .next t) (hrun : t.status = .running) :
    ∃ pc st, t = { drawn params x y n s with pc := pc, status := st } := by
  rw [exec_eq_execWith] at h
  obtain ⟨e, he, rfl⟩ := execWith_running h hrun
  obtain rfl := effDraw_ok he
  exact ⟨_, _, rfl⟩

end Drawn

/-! ## The statements of 44_display.md -/

/-- Settles O31: the rows are read first, and then `draw` is sequential with its pixels and its flag pending. -/
theorem drawResult : Obligations.DrawResult := by
  intro x y n s
  rw [exec_eq_execWith]
  refine ⟨encodedAs_encode nofun, fun hrows => ?_, fun hn hout => execWith_raise (effect_draw_outside _ x y hn hout)⟩
  have he := effect_draw (p := params) (Config.rnd s.draws) x y hrows
  have hpc := drawn_pc params x y n s
  refine ⟨fun heven hmem => ⟨_, execWith_sequential he hpc ⟨heven, hmem⟩, rfl, fun _ => reg_drawn_ne, drawn_rows params x y n s,
    drawn_columns params x y n s, fun _ _ hpy hpx => ⟨pixel_drawn_of_spritePixel, pixel_drawn_of_not_spritePixel hpy hpx⟩,
    reg_drawn_flag_of_hit, reg_drawn_flag_of_no_hit⟩, fun hlast => execWith_sequential_lastWord he hpc ?_⟩
  rw [LastWord, hlast]
  decide

/-- Settles O33: the second draw inverts the pixels the first did, and meets a set one exactly where the first met a clear one. -/
theorem drawingTwiceRestoresTheFramebuffer : Obligations.DrawingTwiceRestoresTheFramebuffer := by
  intro x y n s t u hx hy hs hdraw hrun hagain hrun'
  obtain ⟨pc, st, rfl⟩ := exec_draw_running hdraw hrun
  obtain ⟨pc', st', rfl⟩ := exec_draw_running hagain hrun'
  rw [drawn_withPc]
  refine ⟨framebuffer_ext (drawn_rows params x y n _) (drawn_columns params x y n _) hs.fbRows hs.fbColumns fun _ _ =>
    pixel_drawn_drawn hx hy, reg_drawn_flag_eq_one_iff.trans ?_⟩
  refine exists_congr fun py => exists_congr fun px => ?_
  rw [spritePixel_drawn hx hy]
  refine and_congr_right fun hsprite => ?_
  rw [pixel_drawn_of_spritePixel hsprite, Bool.not_eq_true']

/-- Settles O30: sequential for any parameters, with the address pending; where it fits `I` it is written as it is (log entry 19). -/
theorem fontAddressResult : Obligations.FontAddressResult := fun x =>
  ⟨encodedAs_encode nofun, sequential_of_effect (fun s => effect_ldf_params _ x s) fun _ => rfl, fun p rnd s =>
    ⟨fun hfits => ⟨_, execWith_sequential (effect_ldf p rnd x s) rfl hfits, rfl, fontAddress_of_lt⟩,
      execWith_sequential_lastWord (effect_ldf p rnd x s) rfl⟩⟩

/-- Settles O32: sequential, with the framebuffer of clear pixels pending. -/
theorem clearResult : Obligations.ClearResult :=
  results_of_effect (f := fun p _ s => { s with FB := List.replicate p.fbH (List.replicate p.fbW false) })
    (fun _ _ _ => by rw [effect, effCls, grid_const]) (fun _ _ _ => rfl) nofun

end Sys2Proof.Machine
end

section
/-! PROOFS. The statements of 45_timers_keypad.md: the timer accesses as sequential instructions, and `input` by its wait, its fault and
the key press that completes it. -/

namespace Sys2Proof.Machine

/-! ## The wait of `input` (R117) -/

section Input

variable {p : Params} {s : State}

theorem effect_input (rnd : Byte) (x : Reg) (hmem : s.pc.toNat + 4 ≤ p.memSize) :
    effect p rnd (.input x) s = .ok (holdBlocked x s) :=
  if_neg (Nat.not_lt.2 hmem)

theorem effect_input_outside (rnd : Byte) (x : Reg) (hmem : p.memSize < s.pc.toNat + 4) :
    effect p rnd (.input x) s = .error ⟨.pcOutOfBounds, some (s.pc.toNat + 2)⟩ :=
  if_pos hmem

/-- Where the pc after completion is legal, so is the held one, and the commit changes the status alone. -/
theorem execWith_input (rnd : Byte) (x : Reg) (hfits : SeqFits p s) :
    execWith p rnd (.input x) s = .next { s with status := .blocked x } := by
  obtain ⟨heven, hmem⟩ := hfits
  have hheld : (holdBlocked x s).npc + 2 ≤ p.memSize := by simp only [holdBlocked]; omega
  rw [execWith, effect_input rnd x hmem, commit_ok heven hheld]
  simp only [holdBlocked, BitVec.ofNat_toNat, BitVec.setWidth_eq]

end Input

/-- A press of a key 0..15 answers the state the keypad leaves (R140). -/
theorem act_keyPress (p : Params) {k : Nat} (hk : k < 16) (s : State) : act p (.keyPress k) s = .next (keyPress k s) :=
  if_pos hk

/-! ## The statements of 45_timers_keypad.md -/

/-- Settles O34: each is sequential, with one write pending: register X for `ldd`, a timer for the other two. -/
theorem timerAccessResults : Obligations.TimerAccessResults := fun x =>
  ⟨results_of_effect (f := fun _ _ s => s.setReg x s.DT) (fun _ _ _ => rfl) (fun _ _ _ => rfl) nofun,
    results_of_effect (f := fun _ _ s => { s with DT := s.reg x }) (fun _ _ _ => rfl) (fun _ _ _ => rfl) nofun,
    results_of_effect (f := fun _ _ s => { s with ST := s.reg x }) (fun _ _ _ => rfl) (fun _ _ _ => rfl) nofun⟩

/-- Settles O35: the wait commits the status alone, the pc after completion is checked first, and a key press in `Blocked(X)` completes. -/
theorem inputResult : Obligations.InputResult := by
  intro x s
  rw [exec_eq_execWith]
  refine ⟨encodedAs_encode nofun, fun heven hmem => execWith_input _ x ⟨heven, hmem⟩,
    fun hmem => execWith_raise (effect_input_outside _ x hmem), fun p k hblocked hk => ?_⟩
  rw [act_keyPress p hk, keyPress_of_blocked k hblocked]
  rfl

end Sys2Proof.Machine
end

section
/-! PROOFS. The statements of 46_index_memory.md: the writers of the address register as sequential instructions, and the three memory
transfers by what each effect leaves pending inside memory and raises outside it. -/

namespace Sys2Proof.Machine

/-! ## The values written (R20, R118, R119, R120) -/

theorem addrWord_eq_ofNat (nnn : Addr) : addrWord nnn = BitVec.ofNat 16 nnn.toNat :=
  (BitVec.ofNat_toNat 16 nnn).symm

/-- The sum of `addi` wraps at 2^16. -/
theorem add_byte_eq_ofNat (i : Word) (b : Byte) : i + b.setWidth 16 = BitVec.ofNat 16 (i.toNat + b.toNat) := by
  simp [BitVec.ofNat_add]

theorem indexAfter_eq_ite (p : Params) (n : Nat) (i : Word) :
    indexAfter p n i = if p.loadStoreIncrementsI then BitVec.ofNat 16 (i.toNat + n) else i := by
  simp [indexAfter, BitVec.ofNat_add]

/-- The three digits, and 0 past them as `List.getD` gives it. -/
theorem bcdDigits_getD_toNat (v : Byte) (k : Nat) :
    ((bcdDigits v).getD k 0).toNat = if k = 0 then v.toNat / 100 else if k = 1 then v.toNat / 10 % 10
      else if k = 2 then v.toNat % 10 else 0 := by
  have hv : v.toNat < 256 := v.isLt
  match k with
  | 0 | 1 | 2 => simp [bcdDigits]; omega
  | k + 3 => simp [bcdDigits]

/-! ## The effects of the transfers (R51, R52, R120, R121, R122) -/

section Effects

variable {p : Params} {x : Reg} {s : State}

/-- Inside memory `bcd` leaves pending a memory with the three digits at `I`, `I + 1`, `I + 2`, and every other byte kept (R120). -/
theorem effect_bcd (hin : s.I.toNat + 3 ≤ p.memSize) :
    ∃ m, (∀ rnd, effect p rnd (.bcd x) s = .ok (sequential { s with M := m }))
      ∧ ∀ a, (Memory.get p m a).toNat = if a = s.I.toNat then (s.reg x).toNat / 100
          else if a = s.I.toNat + 1 then (s.reg x).toNat / 10 % 10
          else if a = s.I.toNat + 2 then (s.reg x).toNat % 10 else (Memory.get p s.M a).toNat := by
  obtain ⟨m, hw, hget, -⟩ := writeBytes_ok p s.M s.I.toNat (bcdDigits (s.reg x)) (.inr hin)
  refine ⟨m, fun rnd => by simp only [effect, effBcd, hw], fun a => ?_⟩
  have hlen : (bcdDigits (s.reg x)).length = 3 := rfl
  rw [hget, hlen]
  split
  · next hstored =>
    rw [bcdDigits_getD_toNat]
    split_ifs <;> omega
  · next hkept => rw [if_neg (by omega), if_neg (by omega), if_neg (by omega)]

theorem effect_bcd_outside (hout : p.memSize < s.I.toNat + 3) (rnd : Byte) :
    effect p rnd (.bcd x) s = .error ⟨.memoryOutOfBounds, some (max s.I.toNat p.memSize)⟩ := by
  simp only [effect, effBcd, writeBytes_error p s.M s.I.toNat (bcdDigits (s.reg x)) (Nat.succ_pos 2) hout]

/-- Inside memory `stor` leaves pending a memory with registers 0 to X from `I` on, and every other byte kept (R121). -/
theorem effect_stor (hin : s.I.toNat + x.toNat < p.memSize) :
    ∃ m, (∀ rnd, effect p rnd (.stor x) s = .ok (sequential { s with M := m, I := indexAfter p (x.toNat + 1) s.I }))
      ∧ ∀ a, Memory.get p m a = if s.I.toNat ≤ a ∧ a ≤ s.I.toNat + x.toNat
          then s.reg (BitVec.ofNat 4 (a - s.I.toNat)) else Memory.get p s.M a := by
  have hlen := firstRegs_length s x
  obtain ⟨m, hw, hget, -⟩ := writeBytes_ok p s.M s.I.toNat (s.firstRegs (x.toNat + 1)) (.inr (by omega))
  refine ⟨m, fun rnd => by simp only [effect, effStor, hw], fun a => ?_⟩
  rw [hget, hlen]
  refine ite_congr ?_ (fun hstored => firstRegs_getD s (by omega) (by omega)) fun _ => rfl
  rw [← Nat.add_assoc, Nat.lt_succ_iff]

theorem effect_stor_outside (hout : p.memSize ≤ s.I.toNat + x.toNat) (rnd : Byte) :
    effect p rnd (.stor x) s = .error ⟨.memoryOutOfBounds, some (max s.I.toNat p.memSize)⟩ := by
  have hlen := firstRegs_length s x
  simp only [effect, effStor, writeBytes_error p s.M s.I.toNat (s.firstRegs (x.toNat + 1)) (by omega) (by omega)]

/-- Inside memory `load` leaves pending the bytes from `I` in registers 0 to X, with every other register kept (R122). -/
theorem effect_load (hin : s.I.toNat + x.toNat < p.memSize) :
    ∃ v, (∀ rnd, effect p rnd (.load x) s = .ok (sequential { s with x := v, I := indexAfter p (x.toNat + 1) s.I }))
      ∧ ∀ r : Reg, v[r.toNat] = if r.toNat ≤ x.toNat then Memory.get p s.M (s.I.toNat + r.toNat) else s.reg r := by
  refine ⟨(s.loadRegs (bytesFrom p s.M s.I.toNat (x.toNat + 1))).x, fun rnd => ?_, fun r => ?_⟩
  · simp only [effect, effLoad, readBytes_ok p s.M s.I.toNat (x.toNat + 1) (.inr hin), State.loadRegs]
  · rw [← State.reg, reg_loadRegs]
    split
    · next hr => simp [bytesFrom, List.getD_eq_getElem?_getD, Nat.lt_succ_iff.2 hr]
    · next hr => exact List.getD_eq_default _ _ (by rw [bytesFrom_length]; omega)

theorem effect_load_outside (hout : p.memSize ≤ s.I.toNat + x.toNat) (rnd : Byte) :
    effect p rnd (.load x) s = .error ⟨.memoryOutOfBounds, some (max s.I.toNat p.memSize)⟩ := by
  simp only [effect, effLoad, readBytes_error p s.M s.I.toNat (x.toNat + 1) (by omega) (by omega)]

end Effects

/-! ## `exec` of a sequential effect -/

section Exec

variable {i : Instr} {s t u : State}

/-- Where the effect is sequential, `exec` completes at every even pc up to 0xFFC, and raises PcOutOfBounds at 0xFFE (R129). -/
theorem exec_sequential (he : ∀ rnd, effect params rnd i s = .ok (sequential u)) (hpc : u.pc = s.pc) :
    (s.pc.toNat % 2 = 0 → s.pc.toNat + 4 ≤ 4096 → exec i s = .next (advance 2 u))
      ∧ (s.pc = 0xFFE → exec i s = .next (haltedOn i .pcOutOfBounds (some 0x1000) s)) := by
  rw [exec_eq_execWith]
  refine ⟨fun heven hmem => execWith_sequential (he _) hpc ⟨heven, hmem⟩, fun hlast => execWith_sequential_lastWord (he _) hpc ?_⟩
  rw [LastWord, hlast]
  decide

/-- Where the effect raises, `exec` ends in that fault from any pc (R131, R132). -/
theorem exec_raise {r : Raise} (he : ∀ rnd, effect params rnd i s = .error r) :
    exec i s = .next (haltedOn i r.reason r.detail s) := by
  rw [exec_eq_execWith]
  exact execWith_raise (he _)

/-- A `load` that completes leaves the bytes from `I` in registers 0 to X, and every other register as before (R122). -/
theorem exec_load_reg {x : Reg} (h : exec (.load x) s = .next t) (hrun : t.status = .running) (r : Reg) :
    t.reg r = if r.toNat ≤ x.toNat then s.byteAt (s.I.toNat + r.toNat) else s.reg r := by
  rw [exec_eq_execWith] at h
  obtain ⟨e, he, rfl⟩ := execWith_running h hrun
  have hin : s.I.toNat + x.toNat < params.memSize := by
    by_contra hout
    rw [effect_load_outside (Nat.not_lt.1 hout)] at he
    cases he
  obtain ⟨v, hload, hreg⟩ := effect_load hin
  rw [hload] at he
  cases he
  exact hreg r

end Exec

/-! ## The statements of 46_index_memory.md -/

/-- Settles O39: both are sequential for any parameters, with the address or the wrapped sum pending in `I`. -/
theorem addressRegisterResults : Obligations.AddressRegisterResults :=
  ⟨fun nnn => results_of_effect (f := fun _ _ s => { s with I := BitVec.ofNat 16 nnn.toNat })
      (fun _ _ _ => by rw [effect, effLdi, addrWord_eq_ofNat]) (fun _ _ _ => rfl) nofun,
    fun x => results_of_effect (f := fun _ _ s => { s with I := BitVec.ofNat 16 (s.I.toNat + (s.reg x).toNat) })
      (fun _ _ _ => by rw [effect, effAddi, add_byte_eq_ofNat]) (fun _ _ _ => rfl) nofun⟩

/-- Settles O40: the digits are pending inside memory, and the store raises outside it. -/
theorem decimalStoreResult : Obligations.DecimalStoreResult := by
  intro x s
  refine ⟨encodedAs_encode nofun, fun hin => ?_, fun hout => exec_raise (effect_bcd_outside hout)⟩
  obtain ⟨m, hbcd, hget⟩ := effect_bcd (p := params) hin
  obtain ⟨hnext, hlast⟩ := exec_sequential hbcd rfl
  exact ⟨fun heven hmem => ⟨_, hnext heven hmem, rfl, hget⟩, hlast⟩

/-- Settles O41: the registers' bytes are pending inside memory, and the store raises outside it; `I` ends as `indexAfter`. -/
theorem registerStoreResult : Obligations.RegisterStoreResult := by
  intro x s
  refine ⟨encodedAs_encode nofun, fun hin => ?_, fun hout => exec_raise (effect_stor_outside hout), fun p rnd hfits hin => ?_⟩
  · obtain ⟨m, hstor, hget⟩ := effect_stor (p := params) hin
    obtain ⟨hnext, hlast⟩ := exec_sequential hstor rfl
    exact ⟨fun heven hmem => ⟨_, hnext heven hmem, rfl, hget⟩, hlast⟩
  · obtain ⟨m, hstor, -⟩ := effect_stor hin
    exact ⟨_, execWith_sequential (hstor rnd) rfl hfits, rfl, indexAfter_eq_ite p (x.toNat + 1) s.I⟩

/-- Settles O42: the bytes from `I` are pending in the registers inside memory, and the read raises outside it; `I` ends as `indexAfter`. -/
theorem registerLoadResult : Obligations.RegisterLoadResult := by
  intro x s
  refine ⟨encodedAs_encode nofun, fun hin => ?_, fun hout => exec_raise (effect_load_outside hout), fun p rnd hfits hin => ?_⟩
  · obtain ⟨v, hload, hreg⟩ := effect_load (p := params) hin
    obtain ⟨hnext, hlast⟩ := exec_sequential hload rfl
    exact ⟨fun heven hmem => ⟨_, hnext heven hmem, rfl, hreg⟩, hlast⟩
  · obtain ⟨v, hload, -⟩ := effect_load hin
    exact ⟨_, execWith_sequential (hload rnd) rfl hfits, rfl, indexAfter_eq_ite p (x.toNat + 1) s.I⟩

/-- Settles O43: the load reads the bytes from `I`, and the store left registers 0 to X there. -/
theorem loadReadsBackWhatStorWrote : Obligations.LoadReadsBackWhatStorWrote := by
  intro x s t u v hstor hrun hM hI hload hrun' r
  rw [exec_load_reg hload hrun']
  refine ite_congr rfl (fun hr => ?_) fun _ => rfl
  rw [State.byteAt, hM, hI, get_writeBytes (exec_stor_stores hstor hrun), firstRegs_length, if_pos (by omega),
    Nat.add_sub_cancel_left, firstRegs_getD s (by omega) (by omega), BitVec.ofNat_toNat, BitVec.setWidth_eq]

end Sys2Proof.Machine
end

section
/-! PROOFS. The statement of 47_invalid.md: the sentinel's effect raises in every state, and a running machine runs what it fetched. -/

namespace Sys2Proof.Machine

/-- The sentinel raises InvalidOpcode in every state (R123). -/
theorem effect_invalid (p : Params) (rnd : Byte) (w : Word) (s : State) :
    effect p rnd (.invalid w) s = .error ⟨.invalidOpcode, none⟩ := rfl

/-- A running machine runs the instruction that the word it fetched decodes to (R46). -/
theorem stepVia_of_fetch {p : Params} {run : Instr → State → Host.Outcome State Fault Refusal} {s : State} {w : Word}
    (hrun : s.status = .running) (hf : fetch p s = .ok w) : stepVia p run s = run (decode p w) s := by
  simp only [stepVia, hrun, hf]

/-- Settles O45: the sentinel's fault records the word that its encoding keeps, and an illegal word decodes to its sentinel. -/
theorem sentinelResult : Obligations.SentinelResult := by
  refine ⟨fun w s => exec_raise fun rnd => effect_invalid params rnd w s, fun p rnd w s hrun hf hillegal => ?_⟩
  calc stepWith p rnd s
      = execWith p rnd (decode p w) s := stepVia_of_fetch hrun hf
    _ = execWith p rnd (.invalid w) s := by rw [decode_of_illegal hillegal]
    _ = .next (haltedOn (.invalid w) .invalidOpcode none s) := execWith_raise (effect_invalid p rnd w s)

end Sys2Proof.Machine
end

section
/-! PROOFS. The statements of 60_exceptions.md: fault entry (R131, R132, R134), the tick and the key events (R138 to R142), over what a step
outside `Running` and a host transaction leave unchanged. -/

namespace Sys2Proof.Machine

section Transactions

variable {p : Params} {s t : State}

/-! ## The transactions (R45) -/

/-- A step in `Blocked` or `Halted` answers the same state (R133, R157). -/
theorem stepVia_of_not_running {run : Instr → State → Host.Outcome State Fault Refusal} (h : s.status ≠ .running) :
    stepVia p run s = .next s := by
  unfold stepVia
  cases hs : s.status with
  | running => exact absurd hs h
  | blocked x => rfl
  | halted f => rfl

theorem act_keyPress_next {k : Nat} (h : act p (.keyPress k) s = .next t) : t = keyPress k s := by
  simp only [act] at h
  split at h
  · cases h; rfl
  · cases h

theorem act_keyRelease_next {k : Nat} (h : act p (.keyRelease k) s = .next t) : t = keyRelease k s := by
  simp only [act] at h
  split at h
  · cases h; rfl
  · cases h

theorem construct_status {image : List Byte} (h : construct p image = .ok s) : s.status = .running := by
  unfold construct at h
  split at h
  · cases h
  · cases h; rfl

/-- A construction that answers leaves a running machine (R134, R147). -/
theorem act_construct_status {image : List Byte} (h : act p (.construct image) s = .next t) : t.status = .running := by
  simp only [act] at h
  split at h
  · cases h
  · next c hc =>
    have hrun : c.status = .running := construct_status hc
    cases h; exact hrun

/-- What is neither a construction nor a key press nor a step that runs an instruction changes at most the timers and the keypad. -/
theorem act_frame {a : Transaction} (h : act p a s = .next t) (hconstruct : ∀ image, a ≠ .construct image)
    (hpress : ∀ k, a ≠ .keyPress k) (hstep : s.status ≠ .running ∨ ∀ rnd, a ≠ .step rnd) :
    t = { s with DT := t.DT, ST := t.ST, KEYS := t.KEYS } := by
  cases a with
  | construct image => exact absurd rfl (hconstruct image)
  | keyPress k => exact absurd rfl (hpress k)
  | step rnd =>
    have hrun : s.status ≠ .running := hstep.resolve_right fun hno => hno rnd rfl
    cases (stepVia_of_not_running hrun).symm.trans h; rfl
  | keyRelease k => obtain rfl := act_keyRelease_next h; rfl
  | tick | readSnapshot | readFramebuffer | readSound => cases h; rfl

/-! ## The status (R134, R142) -/

/-- An instruction that ends in a fault ends in fault entry with that record (R132). -/
theorem execWith_halted {rnd : Byte} {i : Instr} {f : FaultRecord} (h : execWith p rnd i s = .next t)
    (hf : t.status = .halted f) : t = { s with status := .halted f } ∧ f.pc = s.pc ∧ f.word = encode i := by
  obtain ⟨r, rfl⟩ | ⟨e, -, he, -, -, rfl⟩ := execWith_cases h
  · cases hf; exact ⟨rfl, rfl, rfl⟩
  · obtain hrun | ⟨x, hwait, -⟩ := he.status_cases
    · cases hrun.symm.trans hf
    · cases hwait.symm.trans hf

/-- An effect that waits is that of `input` (R117). -/
theorem effect_blocked {rnd : Byte} {i : Instr} {e : Effect} {x : Reg} (h : effect p rnd i s = .ok e)
    (hx : e.status = .blocked x) : i = .input x := by
  cases i with
  | input y =>
    simp only [effect, effInput] at h
    split at h
    · cases h
    · cases h; cases hx; rfl
  | ret | call | skp | sknp | draw | bcd | stor | load =>
    simp only [effect, effRet, effCall, effSkp, effSknp, effDraw, effBcd, effStor, effLoad] at h
    split at h
    · cases h
    · cases h; cases hx
  | invalid => cases h
  | _ => cases h; cases hx

/-- A key press never leaves a machine waiting (R140). -/
theorem keyPress_status_ne_blocked (k : Nat) (s : State) (x : Reg) : (keyPress k s).status ≠ .blocked x := by
  by_cases hb : ∃ y, s.status = .blocked y
  · obtain ⟨y, hy⟩ := hb
    rw [keyPress_of_blocked k hy]; nofun
  · have hno : ∀ y, s.status ≠ .blocked y := fun y hy => hb ⟨y, hy⟩
    rw [keyPress_of_not_blocked k hno]; exact hno x

/-! ## The timers and the keypad (R138, R140, R141) -/

theorem countDown_toNat (v : Byte) : (countDown v).toNat = v.toNat - 1 := by
  unfold countDown
  split
  · next hpos => exact BitVec.toNat_sub_of_le (BitVec.le_def.2 hpos)
  · next hzero => rw [Nat.eq_zero_of_not_pos hzero]; rfl

/-- A press sets the key's bit in every status. -/
@[simp] theorem keyPress_KEYS (k : Nat) (s : State) : (keyPress k s).KEYS = setKey s.KEYS k true := by
  unfold keyPress
  cases s.status <;> rfl

end Transactions

/-! ## The statements of 60_exceptions.md -/

/-- Settles O13: fault entry is the only end in `Halted`, and the word a step ran is the encoding of what it decoded to (R72). -/
theorem faultsCommitNothing : Obligations.FaultsCommitNothing := by
  refine ⟨fun p rnd i s t f h hf => execWith_halted h hf, fun s t f hrun h hf => ?_⟩
  rw [step_eq_stepWith] at h
  obtain ⟨hwait, -⟩ | ⟨-, w, hw, hexec⟩ := stepVia_cases h
  · exact absurd hrun hwait
  · obtain ⟨ht, hpc, hword⟩ := execWith_halted hexec hf
    rw [encode_decode] at hword
    exact ⟨ht, hpc, hword ▸ hw⟩

/-- Settles O14: each effect raises before there is a next pc to check. -/
theorem ownFaultsComeBeforeThePcCheck : Obligations.OwnFaultsComeBeforeThePcCheck := fun _ =>
  ⟨fun nnn => exec_call_full nnn, exec_ret_empty, fun x y _ hn hout => exec_raise fun rnd => effect_draw_outside rnd x y hn hout,
    fun _ hout => exec_raise (effect_bcd_outside hout),
    fun _ hout => ⟨exec_raise (effect_stor_outside (Nat.lt_succ_iff.1 hout)), exec_raise (effect_load_outside (Nat.lt_succ_iff.1 hout))⟩,
    fun _ _ x hmask habove => ⟨(skp_isKeySkip x).execWith_out_of_range hmask habove,
      (sknp_isKeySkip x).execWith_out_of_range hmask habove⟩⟩

/-- Settles O15: a press finds no waiting `input` in `Halted`, and what is neither a press nor a construction leaves the status. -/
theorem onlyConstructionLeavesHalted : Obligations.OnlyConstructionLeavesHalted := by
  intro p x s f hf
  have hrun : s.status ≠ .running := by simp [hf]
  refine ⟨fun rnd => stepVia_of_not_running hrun, fun t hconstruct h => ?_, fun t image h => ?_⟩
  · by_cases hpress : ∃ k, x = .keyPress k
    · obtain ⟨k, rfl⟩ := hpress
      obtain rfl := act_keyPress_next h
      rw [keyPress_of_not_blocked k (by simp [hf])]
      exact hf
    · rw [act_frame h hconstruct (not_exists.1 hpress) (.inl hrun)]
      exact hf
  · exact act_construct_status h

/-- Settles O16: `input` alone waits, a construction and a press leave no wait, and the other host transactions leave the status. -/
theorem onlyAKeyPressWakesBlocked : Obligations.OnlyAKeyPressWakesBlocked := by
  refine ⟨fun p rnd i s t x h hx => ?_, fun p a s t x h hx => ?_, fun p a s t x hs hconstruct hpress h => ?_,
    fun p k s x hs hk => ⟨_, act_keyPress p hk s, ?_⟩⟩
  · obtain ⟨r, rfl⟩ | ⟨e, he, -, -, -, rfl⟩ := execWith_cases h
    · cases hx
    · exact effect_blocked he hx
  · by_cases hstep : ∃ rnd, a = .step rnd
    · exact .inr hstep
    · have hconstruct : ∀ image, a ≠ .construct image := by
        rintro image rfl
        cases (act_construct_status h).symm.trans hx
      have hpress : ∀ k, a ≠ .keyPress k := by
        rintro k rfl
        obtain rfl := act_keyPress_next h
        exact keyPress_status_ne_blocked k s x hx
      rw [act_frame h hconstruct hpress (.inr (not_exists.1 hstep))] at hx
      exact .inl hx
  · exact act_frame h hconstruct hpress (.inl (by simp [hs]))
  · rw [keyPress_of_blocked k hs]

/-- Settles O36: the tick counts each timer down once, whatever the status. -/
theorem tickResult : Obligations.TickResult := fun _ s =>
  ⟨tick s, rfl, rfl, countDown_toNat s.DT, countDown_toNat s.ST⟩

/-- Settles O37: the one bit of the keypad, and the completion of a waiting `input`. -/
theorem keyPressResult : Obligations.KeyPressResult := by
  intro p k s
  refine ⟨fun hk => if_neg (Nat.not_lt.2 hk), fun hk => ⟨_, act_keyPress p hk s, fun j => ?_, fun hno => ?_, fun x hx => ?_⟩⟩
  · rw [keyPress_KEYS, getLsbD_setKey s.KEYS hk]
  · rw [keyPress_of_not_blocked k hno]
  · rw [keyPress_of_blocked k hx]; rfl

/-- Settles O38: the release writes the one bit of the keypad, whatever the status. -/
theorem keyReleaseResult : Obligations.KeyReleaseResult := fun _ k s =>
  ⟨fun hk => if_neg (Nat.not_lt.2 hk), fun hk => ⟨keyRelease k s, if_pos hk, rfl, getLsbD_setKey s.KEYS hk false⟩⟩

end Sys2Proof.Machine
end

section
/-! PROOFS. The statements of 70_reset_and_hazards.md: the configuration errors (R150), the constructed machine (R147, R149, R151) and the
steps outside `Running` (R157). -/

namespace Sys2Proof.Machine

/-! ## The configuration errors (R150) -/

section Configuration

variable {p : Params} {image : List Byte}

/-- The condition R150's table gives each error. The font overlaps `LOAD_BASE ..` when it does not end below it (log entry 13). -/
def ConfigErrorHolds (p : Params) (image : List Byte) : ConfigError → Prop
  | .oddProgramLength => image.length % 2 = 1
  | .programTooLarge => p.memSize < p.loadBase + image.length
  | .badMemoryLayout => p.loadBase % 2 = 1 ∨ p.memSize < p.loadBase + 2 ∨ p.loadBase < p.fontBase + 80
      ∨ p.memSize < p.fontBase + 80 ∨ p.memSize < 4096 ∨ 65536 < p.memSize
  | .badStackDepth => p.stackDepth < 1
  | .badFramebuffer => p.fbW < 8 ∨ p.fbH < 1

theorem layoutOk_eq_false_iff : layoutOk p = false ↔ ConfigErrorHolds p image .badMemoryLayout := by
  rw [← Bool.not_eq_true, layoutOk_iff, ConfigErrorHolds]
  omega

/-- The error reported is one whose condition holds. -/
theorem holds_of_configError {e : ConfigError} (h : configError p image = some e) : ConfigErrorHolds p image e := by
  unfold configError at h
  split_ifs at h with hodd hlarge hlayout hstack hframe
  all_goals cases h
  · exact hodd
  · exact hlarge
  · exact layoutOk_eq_false_iff.1 (by simpa using hlayout)
  · exact hstack
  · exact hframe

/-- Where no error is reported no condition holds. -/
theorem not_holds_of_configError_none (h : configError p image = none) (e : ConfigError) : ¬ ConfigErrorHolds p image e := by
  unfold configError at h
  split_ifs at h with hodd hlarge hlayout hstack hframe
  cases e with
  | oddProgramLength => exact hodd
  | programTooLarge => exact hlarge
  | badMemoryLayout => exact fun hbad => hlayout (by simpa using layoutOk_eq_false_iff.2 hbad)
  | badStackDepth => exact hstack
  | badFramebuffer => exact hframe

theorem construct_of_configError {e : ConfigError} (h : configError p image = some e) : construct p image = .error e := by
  simp only [construct, h]

theorem construct_of_configError_none (h : configError p image = none) :
    construct p image = .ok { State.initial p with M := loadImage p [] p.loadBase image } := by
  simp only [construct, h]

theorem holds_of_construct {e : ConfigError} (h : construct p image = .error e) : ConfigErrorHolds p image e := by
  cases hc : configError p image with
  | none => cases (construct_of_configError_none hc).symm.trans h
  | some e' => cases (construct_of_configError hc).symm.trans h; exact holds_of_configError hc

/-- A construction reports an error exactly when some error's condition holds. -/
theorem construct_error_iff : (∃ e, construct p image = .error e) ↔ ∃ e, ConfigErrorHolds p image e := by
  constructor
  · rintro ⟨e, he⟩
    exact ⟨e, holds_of_construct he⟩
  · rintro ⟨e, he⟩
    cases hc : configError p image with
    | none => exact absurd he (not_holds_of_configError_none hc e)
    | some e' => exact ⟨e', construct_of_configError hc⟩

/-- Some condition of R150's table holds, written out. -/
theorem exists_holds_iff : (∃ e, ConfigErrorHolds p image e) ↔
    ConfigErrorHolds p image .oddProgramLength ∨ ConfigErrorHolds p image .programTooLarge
      ∨ ConfigErrorHolds p image .badMemoryLayout ∨ ConfigErrorHolds p image .badStackDepth
      ∨ ConfigErrorHolds p image .badFramebuffer := by
  constructor
  · rintro ⟨e, he⟩
    cases e with
    | oddProgramLength => exact .inl he
    | programTooLarge => exact .inr (.inl he)
    | badMemoryLayout => exact .inr (.inr (.inl he))
    | badStackDepth => exact .inr (.inr (.inr (.inl he)))
    | badFramebuffer => exact .inr (.inr (.inr (.inr he)))
  · rintro (h | h | h | h | h) <;> exact ⟨_, h⟩

end Configuration

/-! ## The reset state (R147, R151) -/

theorem reg_initial (p : Params) (r : Reg) : (State.initial p).reg r = 0 := by
  simp [State.reg, State.initial]

theorem pixel_initial (p : Params) (py px : Nat) : pixel (State.initial p).FB py px = false := by
  simp only [pixel, State.initial, List.getD_eq_getElem?_getD, List.getElem?_replicate]
  split
  · simp only [Option.getD_some, List.getElem?_replicate]
    split <;> rfl
  · rfl

/-! ## The statements of 70_reset_and_hazards.md -/

/-- Settles O8: neither step runs an instruction outside `Running`. -/
theorem waitingAndHaltedStepsChangeNothing : Obligations.WaitingAndHaltedStepsChangeNothing := fun _ h =>
  ⟨stepVia_of_not_running h, fun _ _ => stepVia_of_not_running h⟩

/-- Settles O12: the reset state is the one constructed from an empty image at the spec's parameter values. -/
theorem invariantHoldsAtReset : Obligations.InvariantHoldsAtReset :=
  construct_inv (p := params) (image := []) (construct_of_configError_none (by decide)) 0

/-- Settles O47: the fields of the reset state, and memory by the bytes that loading the image leaves. -/
theorem constructResult : Obligations.ConstructResult := by
  intro p image
  refine ⟨fun e he => ⟨construct_of_configError he, fun s => ?_⟩, fun hnone => ?_⟩
  · simp only [act, construct_of_configError he]
  · exact ⟨_, construct_of_configError_none hnone, reg_initial p, rfl, rfl, rfl, rfl, rfl, rfl, pixel_initial p, rfl, rfl,
      get_loadImage p [] p.loadBase image⟩

/-- Settles O48: a construction reports an error where a condition of the table holds, and only one whose condition holds. -/
theorem configurationErrors : Obligations.ConfigurationErrors := fun _ _ =>
  ⟨construct_error_iff.trans exists_holds_iff, holds_of_construct, holds_of_construct, holds_of_construct, holds_of_construct,
    holds_of_construct⟩

/-- Settles O49: the fields of the reset state; with no image loaded memory reads as the font and 0. -/
theorem resetValues : Obligations.ResetValues := by
  refine ⟨reg_initial params, rfl, rfl, rfl, rfl, rfl, rfl, rfl, pixel_initial params, rfl, rfl, fun a => ?_⟩
  have hfont : (0x050 ≤ a ∧ a < 0x050 + 80) = (0x050 ≤ a ∧ a ≤ 0x09F) := by rw [eq_iff_iff]; omega
  exact if_congr (iff_of_eq hfont) rfl rfl

end Sys2Proof.Machine
end
